-- ==== Sys2Proof/Word.lean ====
section
/-! DEFINITION. Word.lean: the two word types of the engine. -/

namespace Sys2Proof

/-- The engine's only data width: "Every transaction moves exactly one byte; there is no other access
width" (20_memory.md R50) and "Every register, buffer element and ROM entry is exactly one byte" (R54). -/
abbrev Byte := BitVec 8

/-- A host address: "a 10-bit byte address A[9:0]" (20_memory.md R50). -/
abbrev HostAddr := BitVec 10

end Sys2Proof
end

