-- ==== Sys2Proof/Config.lean ====
section
/-! DEFINITION. Config.lean: what is fixed for one engine and left open by the spec (the sine ROM's values), and
the free values (the bytes the spec calls unspecified). Every open value is an opaque constant with no body, so
a proof holds whatever the value is. -/

namespace Sys2Proof

/-- The sine ROM (10_state.md R31): 64 entries SINE_TABLE[0..63], each 0..63 (00_scope.md R9 (a)), and the
quarter-point value SINE_AT_64, 0..127 (R10). The widths carry the two bounds; the third constraint of R9 is
`SineRom.Admissible`. -/
structure SineRom where
  table : Vector (BitVec 6) 64
  at64  : BitVec 7
  deriving DecidableEq, Repr

/-- 00_scope.md R9 (b): the table is monotonically non-decreasing in its index. -/
def SineRom.Admissible (r : SineRom) : Prop :=
  ∀ i j : Fin 64, i ≤ j → r.table[i].toNat ≤ r.table[j].toNat

namespace Config

/-- OPEN (00_scope.md R9, 91_not_in_source.md G1): unconstrained draws from which the table is made. DESIGN CHOICE,
notes/assumptions/5.md. -/
opaque sineDraw : Nat → BitVec 6

/-- OPEN (00_scope.md R10, 91_not_in_source.md G2): SINE_AT_64. DESIGN CHOICE, notes/assumptions/5.md. -/
opaque sineAt64 : BitVec 7

/-- FREE VALUE (70_reset_and_hazards.md R231, 93_implementation_defined.md I4): what byte `i` of BUF holds after
power-on until something writes it. DESIGN CHOICE, notes/assumptions/2.md. -/
opaque powerOnByte : Nat → Byte

/-- FREE VALUE (70_reset_and_hazards.md R232, 93_implementation_defined.md I5): the `n`-th byte drawn for a BUF
byte that a reset during FFT or BITREV left unspecified. `n` counts on in `State.draws`. DESIGN CHOICE,
notes/assumptions/3.md. -/
opaque lostByte : Nat → Byte

/-- FREE VALUE (10_state.md R32, 93_implementation_defined.md I3): what an IM byte holds that nothing has written.
No rule reads it. DESIGN CHOICE,
notes/assumptions/6.md. -/
opaque imByte : Nat → Byte

/-- The largest of the first `i + 1` draws. A table built from it is non-decreasing whatever the draws are, and
every non-decreasing table is built so from itself: the limit of R9 (b) and nothing more. -/
def sineRise : Nat → Nat
  | 0 => (sineDraw 0).toNat
  | i + 1 => Nat.max (sineRise i) (sineDraw (i + 1)).toNat

/-- This engine's sine ROM: valid from power-on, never changed (70_reset_and_hazards.md R233). -/
def sineRom : SineRom where
  table := Vector.ofFn fun i => BitVec.ofNat 6 (sineRise i)
  at64 := sineAt64

end Config
end Sys2Proof
end

