-- ==== Sys2Proof/Syntax.lean ====
section
/-! DEFINITION. Syntax.lean: the six commands of MFFT-CMD version 1 (30_encoding.md R84, R94). -/

namespace Sys2Proof

/-- One constructor per row of spec/opcode_table.json. A command has no operand field: "No command carries an
immediate. Operands come from LEN and OPA-OPE" (30_encoding.md R80). -/
inductive Instr where
  /-- FFT, the transform (44_transform.md R180). -/
  | fft
  /-- BITREV, the bit-reversal permuter (42_bitrev.md R140). -/
  | bitrev
  /-- MUL, the fixed-point multiplier (41_multiply.md R120). -/
  | mul
  /-- ROMRD, the sine-table accessor (40_twiddle.md R101). -/
  | romrd
  /-- TWID, the twiddle-factor generator (40_twiddle.md R102). -/
  | twid
  /-- BFLY, one butterfly (43_butterfly.md R160). -/
  | bfly
  deriving DecidableEq, Repr

end Sys2Proof
end

