-- ==== Sys2Proof/WellFormed.lean ====
section
/-! DEFINITION. WellFormed.lean: what makes a command, and a host transaction, well formed. -/

namespace Sys2Proof

/-- A command has no field that could be out of range (30_encoding.md R80, R87): each of the six is well formed. -/
def Instr.wellFormed : Instr → Bool
  | .fft => true
  | .bitrev => true
  | .mul => true
  | .romrd => true
  | .twid => true
  | .bfly => true

/-- A host bus transaction (20_memory.md R50): direction, address and the byte of a write. -/
structure Transaction where
  write : Bool
  addr  : HostAddr
  data  : Byte
  deriving DecidableEq, Repr

/-- 30_encoding.md R91: a read's data field is 0. -/
def Transaction.wellFormed (t : Transaction) : Bool := t.write || t.data == 0#8

end Sys2Proof
end

