-- ==== Sys2Proof/Decode.lean ====
section
/-! DEFINITION. Decode.lean: the command decoder (30_encoding.md R81, R83, R84), the encoder, and the coding of host
transactions as 19-bit words (R91). -/

namespace Sys2Proof

/-- Why a byte string or a word is rejected. -/
inductive DecodeError where
  /-- No byte to decode. -/
  | truncated
  /-- The Z field, bits 7:4, is not 0b0000 (30_encoding.md R80, R83). -/
  | reservedZ
  /-- OP, bits 3:0, is 0 or 7..15 (30_encoding.md R83, R89). -/
  | reservedOp
  /-- A 19-bit read word whose data field is not 0 (30_encoding.md R91). -/
  | readData
  deriving DecidableEq, Repr

/-- CMD.OP = v[3:0] (10_state.md R22). -/
def cmdOp (v : Byte) : BitVec 4 := v.extractLsb' 0 4

/-- CMD.Z = v[7:4] (10_state.md R22). -/
def cmdZ (v : Byte) : BitVec 4 := v.extractLsb' 4 4

/-- The opcode map's OP values (30_encoding.md R84). -/
def opOf (op : BitVec 4) : Option Instr :=
  match op.toNat with
  | 1 => some .fft
  | 2 => some .bitrev
  | 3 => some .mul
  | 4 => some .romrd
  | 5 => some .twid
  | 6 => some .bfly
  | _ => none

/-- `DecodeCommand`'s reading of a CMD byte (30_encoding.md R81), total on bytes. -/
def decodeByte (v : Byte) : Except DecodeError Instr :=
  if cmdZ v = 0#4 then
    match opOf (cmdOp v) with
    | some i => .ok i
    | none => .error .reservedOp
  else .error .reservedZ

/-- Decode the first command of a byte string and give back the rest: every command is exactly one byte
(30_encoding.md R87). -/
def decode : List Byte → Except DecodeError (Instr × List Byte)
  | [] => .error .truncated
  | v :: rest =>
    match decodeByte v with
    | .ok i => .ok (i, rest)
    | .error e => .error e

/-- The OP field of a command (30_encoding.md R84, column "CMD byte"). -/
def opField : Instr → BitVec 4
  | .fft => 1#4
  | .bitrev => 2#4
  | .mul => 3#4
  | .romrd => 4#4
  | .twid => 5#4
  | .bfly => 6#4

/-- The CMD byte: Z = 0b0000 above OP (30_encoding.md R80). -/
def encodeByte (i : Instr) : Byte := 0#4 ++ opField i

/-- The bytes of a command. -/
def encode (i : Instr) : List Byte := [encodeByte i]

/-- The `n` low bytes of `w`, the least significant first. -/
def bytesOfWord : Nat → Nat → List Byte
  | 0, _ => []
  | n + 1, w => BitVec.ofNat 8 w :: bytesOfWord n (w / 256)

/-- The command this decoder reads from a table row's word, bit 0 the least significant bit of its first byte;
`none` where the decoder rejects it. -/
def decodeTableWord (nbits w : Nat) : Option Instr :=
  match decode (bytesOfWord ((nbits + 7) / 8) (w % 2 ^ nbits)) with
  | .ok (i, _) => some i
  | .error _ => none

/-- A transaction as a 19-bit word: bit 18 = W, bits 17:8 = A, bits 7:0 = data (30_encoding.md R91). -/
def encodeTransaction (t : Transaction) : BitVec 19 :=
  BitVec.ofBool t.write ++ t.addr ++ t.data

/-- The transaction a 19-bit word stands for. A read's data field is 0 (30_encoding.md R91), so a read word with
another data field stands for none. DEDUCED, notes/assumptions/12.md. -/
def decodeTransaction (w : BitVec 19) : Except DecodeError Transaction :=
  let t : Transaction := ⟨w.getLsbD 18, w.extractLsb' 8 10, w.extractLsb' 0 8⟩
  if t.wellFormed then .ok t else .error .readData

end Sys2Proof
end

