-- ==== Sys2Proof/Machine/State.lean ====
section
/-! DEFINITION. Machine/State.lean: the state of the engine and its host, the reasons a step can stop, and reset. -/

namespace Sys2Proof.Machine

/-- Why the machine stops with a fault. The engine itself "has no trap mechanism" (60_exceptions.md R200): every
error condition of the spec is a STATUS flag and a next state. -/
inductive Fault where
  /-- Raised by `engineTurn` alone, in a state with STATUS.BUSY = 1 and an empty PENDING: 10_state.md R33 says that
  PENDING holds the accepted command while BUSY = 1, so no run reaches such a state. Safe.
  DESIGN CHOICE, notes/assumptions/9.md. -/
  | pendingEmpty
  deriving DecidableEq, Repr

/-- Why the machine refuses an instruction. -/
inductive Refusal where
  /-- Raised by an arm of `exec` whose instruction has no meaning yet; no arm of this model does. Safe. -/
  | notModelled (mnemonic : String)
  deriving DecidableEq, Repr

/-- The STATUS flags (10_state.md R25). -/
inductive Flag where
  | busy
  | done
  | sizeErr
  | ovf
  | cmdErr
  | accErr
  deriving DecidableEq, Repr

/-- A store of bytes by address, in one canonical form: addresses strictly rising. An address that is not listed
holds no value (10_state.md R30: "a model treats a byte nothing has written as holding no value"). -/
abbrev Memory := List Host.Cell

/-- The canonical form of a 256-byte store (10_state.md R30, R32): strictly rising addresses, all below 256. -/
abbrev Memory.wf (m : Memory) : Prop :=
  m.Pairwise (fun x y => x.1 < y.1) ∧ ∀ c ∈ m, c.1 < 256

/-- The operand registers OPA, OPB, OPC, OPD, OPE (10_state.md R27). -/
structure Operands where
  a : Byte
  b : Byte
  c : Byte
  d : Byte
  e : Byte
  deriving DecidableEq, Repr

/-- The result registers RES0, RES1, RES2, RES3 (10_state.md R28). -/
structure Results where
  r0 : Byte
  r1 : Byte
  r2 : Byte
  r3 : Byte
  deriving DecidableEq, Repr

/-- A command held by the latch PENDING (10_state.md R33): the command, M = LEN.M and a..e = OPA..OPE, both as they
were at acceptance. -/
structure Pending where
  op   : Instr
  m    : BitVec 4
  args : Operands
  deriving DecidableEq, Repr

/-- A line of a host program (30_encoding.md R90). -/
inductive HostLine where
  /-- `WR <addr>, <byte>` or `RD <addr>`: one bus transaction. -/
  | bus (t : Transaction)
  /-- `RD <addr> -> s` with the host branch `BNZ s & mask, <label>` that follows it. The label is written as its
  distance in lines from this line. DESIGN CHOICE, notes/assumptions/7.md. -/
  | readBranch (addr : HostAddr) (mask : Byte) (offset : Int)
  deriving DecidableEq, Repr

/-- The HOST agent (00_scope.md R19): its program, the line it is at, and the bytes its reads returned, the latest
first. The engine has no program counter (10_state.md R20); `line` is the host's. -/
structure HostAgent where
  program : List HostLine
  line    : Nat
  replies : List Byte
  deriving DecidableEq, Repr

/-- Who moves next in the one total order of atomic steps (20_memory.md R61), or a reset, "an external event that may
occur between any two steps of the model" (70_reset_and_hazards.md R230). -/
inductive Turn where
  | host
  | engine
  | reset
  deriving DecidableEq, Repr

/-- Everything the spec gives the machine, the host that drives it, and two fields of the model's own (`turns` and
`draws`). -/
structure State where
  /-- BUF, the sample buffer (10_state.md R30). -/
  buf     : Memory
  /-- IM, the imaginary scratch (10_state.md R32). -/
  im      : Memory
  /-- The sine ROM, a constant (10_state.md R31). -/
  rom     : SineRom
  /-- LEN (10_state.md R23). -/
  len     : Byte
  /-- STATUS (10_state.md R25). -/
  status  : Byte
  /-- OPA..OPE (10_state.md R27). -/
  ops     : Operands
  /-- RES0..RES3 (10_state.md R28). -/
  res     : Results
  /-- PENDING; `none` is empty (10_state.md R33). -/
  pending : Option Pending
  /-- The HOST agent (00_scope.md R19). -/
  host    : HostAgent
  /-- The model's own: the turns still to be taken in the order given; see `step` for what follows them.
  DESIGN CHOICE, notes/assumptions/1.md. -/
  turns   : List Turn
  /-- The model's own: how many free bytes `Config.lostByte` has supplied. DESIGN CHOICE,
  notes/assumptions/3.md. -/
  draws   : Nat
  deriving DecidableEq, Repr

/-- The state after power-on and reset (10_state.md R36): every register 0x00, PENDING empty, BUF and IM holding no
value, the ROM the engine's constant. The host has no program and no turn is laid down
(DESIGN CHOICE, notes/assumptions/1.md, 2.md, 6.md, 8.md). -/
def State.reset : State where
  buf := []
  im := []
  rom := Config.sineRom
  len := 0#8
  status := 0#8
  ops := ⟨0#8, 0#8, 0#8, 0#8, 0#8⟩
  res := ⟨0#8, 0#8, 0#8, 0#8⟩
  pending := none
  host := ⟨[], 0, []⟩
  turns := []
  draws := 0

end Sys2Proof.Machine
end

