-- ==== Sys2Proof/Machine/Flags.lean ====
section
/-! DEFINITION. Machine/Flags.lean: the STATUS byte's flags and every flag computation (10_state.md R25, R26, R29;
60_exceptions.md R201). -/

namespace Sys2Proof.Machine

/-- The flag's bit of STATUS, which is also its cause code (10_state.md R25, 60_exceptions.md R201). -/
def Flag.bit : Flag → Nat
  | .busy => 0
  | .done => 1
  | .sizeErr => 2
  | .ovf => 3
  | .cmdErr => 4
  | .accErr => 5

/-- The byte with the flag's bit alone. -/
def Flag.mask (f : Flag) : Byte := 1#8 <<< f.bit

/-- The flag's value in a STATUS byte. -/
def hasFlag (f : Flag) (st : Byte) : Bool := st.getLsbD f.bit

/-- `STATUS.X <- 1`. -/
def setFlag (f : Flag) (st : Byte) : Byte := st ||| f.mask

/-- `STATUS.X <- 0`. -/
def clearFlag (f : Flag) (st : Byte) : Byte := st &&& ~~~f.mask

/-- Set a flag where a condition holds, else leave it as it stands (the flags are sticky, 10_state.md R25). -/
def setFlagIf (c : Bool) (f : Flag) (st : Byte) : Byte := if c then setFlag f st else st

/-- `StatusWrite(v)`: clear bits 1..5 where v has a 1; v[0] and v[7:6] are ignored (10_state.md R26). -/
def statusAfterWrite (v st : Byte) : Byte := st &&& ~~~(v &&& 0x3E#8)

/-- Acceptance: DONE <- 0 and BUSY <- 1, the sticky flags unchanged (30_encoding.md R82). -/
def statusAfterAccept (st : Byte) : Byte := setFlag .busy (clearFlag .done st)

/-- Completion: BUSY <- 0 and DONE <- 1 (70_reset_and_hazards.md R245). -/
def statusAfterComplete (st : Byte) : Byte := setFlag .done (clearFlag .busy st)

/-- A result that a byte cannot hold: "x is outside [−128, 127]" (30_encoding.md R86). -/
def outOfRange (x : Int) : Bool := decide (x < -128 ∨ 127 < x)

/-- The size guard's condition, M outside 1..8 (44_transform.md R181, 42_bitrev.md R141). -/
def sizeGuarded (M : Nat) : Bool := decide (M < 1 ∨ 8 < M)

/-- A flag of the state's STATUS. -/
def State.has (s : State) (f : Flag) : Bool := hasFlag f s.status

/-- STATUS.BUSY (10_state.md R25). -/
def State.busy (s : State) : Bool := s.has .busy

end Sys2Proof.Machine
end

