-- ==== Sys2Proof/Machine/Operands.lean ====
section
/-! DEFINITION. Machine/Operands.lean: values and widths (00_scope.md R13, R14), operand assembly (30_encoding.md R85)
and result assembly (R86). -/

namespace Sys2Proof.Machine

/-- `int8(b)`: the byte read as two's complement (00_scope.md R13). -/
def int8 (b : Byte) : Int := if b.toNat < 128 then b.toNat else (b.toNat : Int) - 256

/-- `wrap8(x)`: the integer in [−128, 127] congruent to x modulo 256 (00_scope.md R13). -/
def wrap8 (x : Int) : Int := (x + 128) % 256 - 128

/-- `byte(x)` = x mod 256, as a pattern (00_scope.md R13). -/
def byteOf (x : Int) : Byte := BitVec.ofNat 8 (x % 256).toNat

/-- `byte(wrap8(x))`: what a result register or a buffer byte stores for the integer result x (30_encoding.md R86). -/
def storedByte (x : Int) : Byte := byteOf (wrap8 x)

/-- `asr(x, s)` = floor(x / 2^s) (00_scope.md R14). -/
def asr (x : Int) (s : Nat) : Int := x / 2 ^ s

/-- `x & 1` = x mod 2 (00_scope.md R14). -/
def lowBit (x : Int) : Int := x % 2

/-- The M operand of FFT and BITREV: PENDING.M, zero-extended, 0..15 (30_encoding.md R85). -/
def Pending.exponent (p : Pending) : Nat := p.m.toNat

/-- The idx operand of ROMRD: PENDING.a[5:0], zero-extended; OPA[7:6] are ignored (30_encoding.md R85). -/
def romIndex (b : Byte) : Nat := (b.extractLsb' 0 6).toNat

/-- The ph operand of TWID (OPA) and BFLY (OPE): bits 6:0, zero-extended; bit 7 is ignored (30_encoding.md R85). -/
def phaseIndex (b : Byte) : Nat := (b.extractLsb' 0 7).toNat

/-- LEN.M = LEN[3:0] (10_state.md R24). -/
def lenField (len : Byte) : BitVec 4 := len.extractLsb' 0 4

/-- `LEN <- {0b0000, v[3:0]}` (10_state.md R23). -/
def lenAfterWrite (v : Byte) : Byte := 0#4 ++ v.extractLsb' 0 4

/-- OP[k], k = 0..4 for OPA..OPE, as the address map numbers them (20_memory.md R52). -/
def Operands.get (o : Operands) : Nat → Byte
  | 0 => o.a
  | 1 => o.b
  | 2 => o.c
  | 3 => o.d
  | _ => o.e

/-- `OP[k] <- v` (20_memory.md R53). -/
def Operands.put (o : Operands) (v : Byte) : Nat → Operands
  | 0 => { o with a := v }
  | 1 => { o with b := v }
  | 2 => { o with c := v }
  | 3 => { o with d := v }
  | _ => { o with e := v }

/-- RES[k], k = 0..3 for RES0..RES3 (20_memory.md R52). -/
def Results.get (r : Results) : Nat → Byte
  | 0 => r.r0
  | 1 => r.r1
  | 2 => r.r2
  | _ => r.r3

end Sys2Proof.Machine
end

