-- ==== Sys2Proof/Machine/Ops.lean ====
section
/-! DEFINITION. Machine/Ops.lean: the named operations over memory and registers: reading and writing BUF and IM, the
field updates every meaning goes through, raising a flag (the engine's whole error mechanism), acceptance, completion
and reset. -/

namespace Sys2Proof.Machine

/-! ### Memory -/

/-- The value an address holds, if anything has written it. -/
def Memory.lookup : Memory → Nat → Option Byte
  | [], _ => none
  | (b, v) :: m, a => if b = a then some v else Memory.lookup m a

/-- Write one byte, keeping the addresses strictly rising. -/
def Memory.write : Memory → Nat → Byte → Memory
  | [], a, v => [(a, v)]
  | (b, w) :: m, a, v =>
    if a < b then (a, v) :: (b, w) :: m
    else if a = b then (a, v) :: m
    else (b, w) :: Memory.write m a v

/-- `BUF[i]`. A byte that nothing has written since power-on reads as a free value of its own, the same at every read
(70_reset_and_hazards.md R231, 20_memory.md R56). -/
def bufRead (m : Memory) (i : Nat) : Byte := (m.lookup i).getD (Config.powerOnByte i)

/-- `IM[i]` (00_scope.md R15). -/
def imRead (m : Memory) (i : Nat) : Byte := (m.lookup i).getD (Config.imByte i)

/-- `BUF[i]` of a state. -/
def State.bufByte (s : State) (i : Nat) : Byte := bufRead s.buf i

/-- `IM[i]` of a state. -/
def State.imAt (s : State) (i : Nat) : Byte := imRead s.im i

/-! ### Field updates -/

def State.setBuf (s : State) (m : Memory) : State := { s with buf := m }
def State.setIm (s : State) (m : Memory) : State := { s with im := m }
def State.setLen (s : State) (v : Byte) : State := { s with len := v }
def State.setStatus (s : State) (v : Byte) : State := { s with status := v }
def State.setOps (s : State) (o : Operands) : State := { s with ops := o }
def State.setRes (s : State) (r : Results) : State := { s with res := r }
def State.setPending (s : State) (p : Option Pending) : State := { s with pending := p }
def State.setHost (s : State) (h : HostAgent) : State := { s with host := h }
def State.setTurns (s : State) (ts : List Turn) : State := { s with turns := ts }
def State.setDraws (s : State) (n : Nat) : State := { s with draws := n }

/-! ### Error conditions -/

/-- `set STATUS.X`. "It takes the place of `raise <Exception>`, because the engine has no trap mechanism" (00_scope.md
R15): no control flow is redirected, nothing is saved, nothing is recorded besides the bit (60_exceptions.md R200, R201,
R207), and there is no return operation. -/
def State.raise (s : State) (f : Flag) : State := s.setStatus (setFlag f s.status)

/-- Raise a flag where its condition holds. -/
def State.raiseIf (s : State) (c : Bool) (f : Flag) : State := s.setStatus (setFlagIf c f s.status)

/-! ### Acceptance and completion -/

/-- What acceptance latches: the command, LEN.M and the operand registers (30_encoding.md R82). -/
def State.latch (s : State) (i : Instr) : Pending := ⟨i, lenField s.len, s.ops⟩

/-- `Accept(op)` (30_encoding.md R82). -/
def accept (i : Instr) (s : State) : State :=
  (s.setPending (some (s.latch i))).setStatus (statusAfterAccept s.status)

/-- The operands a meaning works on: PENDING (70_reset_and_hazards.md R245: "Completion reads PENDING only"). With
PENDING empty, what acceptance would latch: `step` never calls a meaning so. DESIGN CHOICE, notes/assumptions/4.md. -/
def State.command (s : State) (i : Instr) : Pending := s.pending.getD (s.latch i)

/-- The end of every completion: PENDING <- empty, BUSY <- 0, DONE <- 1 (70_reset_and_hazards.md R245). -/
def State.finish (s : State) : State :=
  (s.setPending none).setStatus (statusAfterComplete s.status)

/-! ### Reset -/

/-- How many bytes of BUF, from byte 0, a reset leaves unspecified: 2^M where it abandons an FFT or BITREV with M in
1..8, else none (70_reset_and_hazards.md R231, R232). -/
def lostExtent : Option Pending → Nat
  | some p =>
    if (p.op = .fft ∨ p.op = .bitrev) ∧ sizeGuarded p.exponent = false then 2 ^ p.exponent else 0
  | none => 0

/-- Fill the first `n` bytes with free values, one draw a byte (70_reset_and_hazards.md R232). -/
def loseBytes (n draws : Nat) (m : Memory) : Memory :=
  (List.range n).foldl (fun m i => Memory.write m i (Config.lostByte (draws + i))) m

/-- `Reset` (70_reset_and_hazards.md R230-R233). IM is unspecified after it: it holds no value. The host and its program
are outside the engine and stay as they are. DESIGN CHOICE, notes/assumptions/3.md, 6.md, 10.md. -/
def resetEngine (s : State) : State :=
  let n := lostExtent s.pending
  ((((((((s.setBuf (loseBytes n s.draws s.buf)).setDraws (s.draws + n)).setIm []).setLen 0#8).setStatus
    0#8).setOps ⟨0#8, 0#8, 0#8, 0#8, 0#8⟩).setRes ⟨0#8, 0#8, 0#8, 0#8⟩).setPending none)

end Sys2Proof.Machine
end

