-- ==== Sys2Proof/Machine/Bitrev.lean ====
section
/-! DEFINITION. Machine/Bitrev.lean: the bit-reversal permuter, BITREV (42_bitrev.md). -/

namespace Sys2Proof.Machine

/-- `rev_M(p)`: bit t of p becomes bit M−1−t (42_bitrev.md R142). -/
def revBits (M p : Nat) : Nat :=
  ((List.range M).map fun t => ((p >>> t) % 2) <<< (M - 1 - t)).sum

/-- `swap(BUF[p], BUF[q])`. -/
def swapBytes (p q : Nat) (m : Memory) : Memory :=
  Memory.write (Memory.write m p (bufRead m q)) q (bufRead m p)

/-- One turn of the permuter's loop: swap only when the partner index is strictly greater (42_bitrev.md R143). -/
def revSwap (M : Nat) (m : Memory) (p : Nat) : Memory :=
  if p < revBits M p then swapBytes p (revBits M p) m else m

/-- `BitRev(M)` on BUF[0..2^M − 1] (42_bitrev.md R143). -/
def bitRev (M : Nat) (m : Memory) : Memory := (List.range (2 ^ M)).foldl (revSwap M) m

/-- The walk's stride: halve l at least once, until mr + l ≤ N − 1 (42_bitrev.md R144; `fuel` bounds the halvings). -/
def walkStride (N mr : Nat) : Nat → Nat → Nat
  | 0, l => l / 2
  | fuel + 1, l => if mr + l / 2 ≤ N - 1 then l / 2 else walkStride N mr fuel (l / 2)

/-- The walk's next mr (42_bitrev.md R144). -/
def walkNext (M mr : Nat) : Nat :=
  let l := walkStride (2 ^ M) mr M (2 ^ M)
  mr % l + l

/-- The permuter as the index walk of 42_bitrev.md R144, a realisation the spec calls equivalent. No meaning calls it. -/
def walkBitRev (M : Nat) (m : Memory) : Memory :=
  ((List.range' 1 (2 ^ M - 1)).foldl
    (fun (w : Nat × Memory) p =>
      let mr := walkNext M w.1
      (mr, if p < mr then swapBytes p mr w.2 else w.2))
    (0, m)).2

/-- BITREV at completion, with its size guard (42_bitrev.md R140, R141). -/
def execBitrev (s : State) : Host.Outcome State Fault Refusal :=
  let M := (s.command .bitrev).exponent
  if sizeGuarded M then .next (s.raise .sizeErr).finish
  else .next (s.setBuf (bitRev M s.buf)).finish

end Sys2Proof.Machine
end

