-- ==== Sys2Proof/Machine/Multiply.lean ====
section
/-! DEFINITION. Machine/Multiply.lean: the fixed-point multiplier, MUL (41_multiply.md). -/

namespace Sys2Proof.Machine

/-- `Mul(a, b)`: the exact product shifted right by 6, then by 1 with the rounding bit added back (41_multiply.md
R121). -/
def mulRound (a b : Int) : Int :=
  let c := asr (a * b) 6
  asr c 1 + lowBit c

/-- MUL at completion (41_multiply.md R120). -/
def execMul (s : State) : Host.Outcome State Fault Refusal :=
  let p := s.command .mul
  let r := mulRound (int8 p.args.a) (int8 p.args.b)
  .next ((s.setRes { s.res with r0 := storedByte r }).raiseIf (outOfRange r) .ovf).finish

end Sys2Proof.Machine
end

