-- ==== Sys2Proof/Machine/Twiddle.lean ====
section
/-! DEFINITION. Machine/Twiddle.lean: the sine-table accessor and the twiddle-factor generator, ROMRD and TWID
(40_twiddle.md). -/

namespace Sys2Proof.Machine

/-- `ROM(i)` for i in 0..64 (40_twiddle.md R100). No rule calls it with another index (R105): above 64 it
gives what it gives for 64. DESIGN CHOICE, notes/assumptions/11.md. -/
def romAt (r : SineRom) (i : Nat) : Int :=
  if h : i < 64 then (r.table[i]).toNat else r.at64.toNat

/-- `Twiddle(ph)` = (wr, wi) for ph in 0..127 (40_twiddle.md R103). -/
def twiddle (r : SineRom) (ph : Nat) : Int × Int :=
  if ph < 64 then (romAt r (64 - ph), -romAt r ph)
  else (-romAt r (ph - 64), -romAt r (128 - ph))

/-- ROMRD at completion (40_twiddle.md R101). -/
def execRomrd (s : State) : Host.Outcome State Fault Refusal :=
  let p := s.command .romrd
  .next (s.setRes { s.res with r0 := byteOf (romAt s.rom (romIndex p.args.a)) }).finish

/-- TWID at completion (40_twiddle.md R102). -/
def execTwid (s : State) : Host.Outcome State Fault Refusal :=
  let p := s.command .twid
  let w := twiddle s.rom (phaseIndex p.args.a)
  .next (s.setRes { s.res with r0 := byteOf w.1, r1 := byteOf w.2 }).finish

end Sys2Proof.Machine
end

