-- ==== Sys2Proof/Machine/Butterfly.lean ====
section
/-! DEFINITION. Machine/Butterfly.lean: the butterfly datapath, the stage loop, and BFLY (43_butterfly.md). -/

namespace Sys2Proof.Machine

/-- The four outputs of a butterfly, exact integers (43_butterfly.md R161). -/
structure BflyOut where
  topRe : Int
  topIm : Int
  botRe : Int
  botIm : Int
  deriving DecidableEq, Repr

/-- `Bfly(ar, ai, br, bi, ph)` (43_butterfly.md R161-R163): four separately rounded products, summed exactly, around
the halved top value. -/
def butterfly (r : SineRom) (ar ai br bi : Int) (ph : Nat) : BflyOut :=
  let w := twiddle r ph
  let tr := mulRound w.1 br - mulRound w.2 bi
  let ti := mulRound w.1 bi + mulRound w.2 br
  let qr := asr ar 1
  let qi := asr ai 1
  ⟨qr + tr, qi + ti, qr - tr, qi - ti⟩

/-- The overflow indication of a butterfly: any output outside [−128, 127] (43_butterfly.md R161, R164). -/
def BflyOut.overflows (o : BflyOut) : Bool :=
  outOfRange o.topRe || outOfRange o.topIm || outOfRange o.botRe || outOfRange o.botIm

/-- What the stage loop works on: BUF, IM, and whether a store was out of range. -/
structure Work where
  buf : Memory
  im  : Memory
  ovf : Bool
  deriving DecidableEq, Repr

/-- The inner statement of `Stages`: one butterfly on positions p and p + l, stored wrapped (43_butterfly.md R164,
R166). -/
def butterflyAt (r : SineRom) (l ph p : Nat) (w : Work) : Work :=
  let q := p + l
  let o := butterfly r (int8 (bufRead w.buf p)) (int8 (imRead w.im p)) (int8 (bufRead w.buf q))
    (int8 (imRead w.im q)) ph
  { buf := Memory.write (Memory.write w.buf p (storedByte o.topRe)) q (storedByte o.botRe)
    im := Memory.write (Memory.write w.im p (storedByte o.topIm)) q (storedByte o.botIm)
    ovf := w.ovf || o.overflows }

/-- `ph <- (b << k) mod 128` (43_butterfly.md R166, R168). -/
def blockPhase (k b : Nat) : Nat := (b <<< k) % 128

/-- The (b, p) pairs of a pass in the order of R166: b outer in 0..l−1, p inner in b, b + 2l, … below N. -/
def passPairs (N l : Nat) : List (Nat × Nat) :=
  (List.range l).flatMap fun b => (List.range (N / (2 * l))).map fun t => (b, b + t * (2 * l))

/-- Run the butterflies of a list of (b, p) pairs. -/
def runPairs (r : SineRom) (l k : Nat) (pairs : List (Nat × Nat)) (w : Work) : Work :=
  pairs.foldl (fun w bp => butterflyAt r l (blockPhase k bp.1) bp.2 w) w

/-- One pass of `Stages` (43_butterfly.md R166). -/
def runPass (r : SineRom) (N l k : Nat) (w : Work) : Work := runPairs r l k (passPairs N l) w

/-- `Stages(M)`: the passes l = 2^s, k = 7 − s for s = 0..M−1 in increasing l (43_butterfly.md R166, R167).
DEDUCED, notes/assumptions/13.md. -/
def stages (r : SineRom) (M : Nat) (w : Work) : Work :=
  (List.range M).foldl (fun w s => runPass r (2 ^ M) (2 ^ s) (7 - s) w) w

/-- BFLY at completion (43_butterfly.md R160). -/
def execBfly (s : State) : Host.Outcome State Fault Refusal :=
  let p := s.command .bfly
  let o := butterfly s.rom (int8 p.args.a) (int8 p.args.b) (int8 p.args.c) (int8 p.args.d) (phaseIndex p.args.e)
  .next ((s.setRes ⟨storedByte o.topRe, storedByte o.topIm, storedByte o.botRe, storedByte o.botIm⟩).raiseIf
    o.overflows .ovf).finish

end Sys2Proof.Machine
end

