-- ==== Sys2Proof/Machine/Transform.lean ====
section
/-! DEFINITION. Machine/Transform.lean: the transform and its four stages, FFT (44_transform.md). -/

namespace Sys2Proof.Machine

/-- Stage 1, `InitImag(N)`: IM[t] <- 0x00 for t in 0..N−1 (44_transform.md R183). -/
def initImag (N : Nat) (im : Memory) : Memory :=
  (List.range N).foldl (fun m t => Memory.write m t 0#8) im

/-- Stage 4, `Pack(N)`: BUF[N/2 + t] <- IM[t] for t in 0..N/2 − 1 (44_transform.md R186). -/
def pack (N : Nat) (w : Work) : Work :=
  { w with buf := (List.range (N / 2)).foldl (fun m t => Memory.write m (N / 2 + t) (imRead w.im t)) w.buf }

/-- What stage 3 starts from: IM cleared, BUF permuted, no overflow yet (44_transform.md R182-R184). -/
def stageInput (M : Nat) (buf im : Memory) : Work := ⟨bitRev M buf, initImag (2 ^ M) im, false⟩

/-- `Transform(M)`, its stages strictly in order (44_transform.md R182). -/
def transform (r : SineRom) (M : Nat) (buf im : Memory) : Work :=
  pack (2 ^ M) (stages r M (stageInput M buf im))

/-- FFT at completion, with its size guard (44_transform.md R180, R181). IM keeps what the stages wrote. DESIGN CHOICE,
notes/assumptions/6.md. -/
def execFft (s : State) : Host.Outcome State Fault Refusal :=
  let M := (s.command .fft).exponent
  let w := transform s.rom M s.buf s.im
  if sizeGuarded M then .next (s.raise .sizeErr).finish
  else .next (((s.setBuf w.buf).setIm w.im).raiseIf w.ovf .ovf).finish

end Sys2Proof.Machine
end

