-- ==== Sys2Proof/Machine/Dispatch.lean ====
section
/-! DEFINITION. Machine/Dispatch.lean: one arm per command (30_encoding.md R84). -/

namespace Sys2Proof.Machine

def exec (i : Instr) (s : State) : Host.Outcome State Fault Refusal :=
  match i with
  | .fft => Sys2Proof.Machine.execFft s
  | .bitrev => Sys2Proof.Machine.execBitrev s
  | .mul => Sys2Proof.Machine.execMul s
  | .romrd => Sys2Proof.Machine.execRomrd s
  | .twid => Sys2Proof.Machine.execTwid s
  | .bfly => Sys2Proof.Machine.execBfly s

end Sys2Proof.Machine
end

