-- ==== Sys2Proof/Machine/Bus.lean ====
section
/-! DEFINITION. Machine/Bus.lean: the host port: the address map, `MemRead`, `MemWrite` and `DecodeCommand`
(20_memory.md R50-R58, 30_encoding.md R81), and the host's move. -/

namespace Sys2Proof.Machine

/-- The classes of the address map (20_memory.md R51). Every 10-bit address falls in one (R55). -/
inductive Place where
  | buf (i : Nat)
  | cmd
  | len
  | status
  | op (k : Nat)
  | res (k : Nat)
  | reserved
  deriving DecidableEq, Repr

/-- The address map (20_memory.md R51). -/
def placeOf (addr : HostAddr) : Place :=
  let a := addr.toNat
  if a ≤ 0x0FF then .buf a
  else if a = 0x200 then .cmd
  else if a = 0x201 then .len
  else if a = 0x202 then .status
  else if 0x204 ≤ a ∧ a ≤ 0x208 then .op (a - 0x204)
  else if 0x20C ≤ a ∧ a ≤ 0x20F then .res (a - 0x20C)
  else .reserved

/-- `DecodeCommand(v)` (30_encoding.md R81): a legal byte is accepted, an illegal one sets CMD_ERR and does nothing
else (R83). -/
def decodeCommand (v : Byte) (s : State) : State :=
  match decodeByte v with
  | .ok i => accept i s
  | .error _ => s.raise .cmdErr

/-- `MemRead(A, 1)`: the byte returned, and the state after (20_memory.md R52). -/
def memRead (addr : HostAddr) (s : State) : Byte × State :=
  match placeOf addr with
  | .buf i => if s.busy then (0#8, s.raise .accErr) else (s.bufByte i, s)
  | .cmd => (0#8, s)
  | .len => (s.len, s)
  | .status => (s.status, s)
  | .op k => (s.ops.get k, s)
  | .res k => (s.res.get k, s)
  | .reserved => (0#8, s)

/-- `MemWrite(A, 1, v)` (20_memory.md R53). -/
def memWrite (addr : HostAddr) (v : Byte) (s : State) : State :=
  match placeOf addr with
  | .buf i => if s.busy then s.raise .accErr else s.setBuf (Memory.write s.buf i v)
  | .cmd => if s.busy then s.raise .accErr else decodeCommand v s
  | .len => if s.busy then s.raise .accErr else s.setLen (lenAfterWrite v)
  | .status => s.setStatus (statusAfterWrite v s.status)
  | .op k => if s.busy then s.raise .accErr else s.setOps (s.ops.put v k)
  | .res _ => s
  | .reserved => s

/-- The host goes to a line. -/
def State.goto (s : State) (line : Nat) : State := s.setHost { s.host with line := line }

/-- The host notes the byte a read returned. -/
def State.reply (s : State) (v : Byte) : State :=
  s.setHost { s.host with replies := v :: s.host.replies }

/-- A transaction's effect, the byte of a read going to the host (20_memory.md R50). -/
def transact (t : Transaction) (s : State) : State :=
  if t.write then memWrite t.addr t.data s
  else (memRead t.addr s).2.reply (memRead t.addr s).1

/-- The host's move: the transaction at its line, and on to the next line or to the branch's label (00_scope.md R19,
30_encoding.md R90). A host at the end of its program does nothing (70_reset_and_hazards.md R248). DESIGN CHOICE,
notes/assumptions/7.md. -/
def hostMove (s : State) : State :=
  match s.host.program[s.host.line]? with
  | none => s
  | some (.bus t) => (transact t s).goto (s.host.line + 1)
  | some (.readBranch addr mask offset) =>
    let v := (memRead addr s).1
    (transact ⟨false, addr, 0#8⟩ s).goto
      (if v &&& mask = 0#8 then s.host.line + 1 else ((s.host.line : Int) + offset).toNat)

end Sys2Proof.Machine
end

