-- ==== Sys2Proof/Machine/HostNotation.lean ====
section
/-! DEFINITION. Machine/HostNotation.lean: the register names of the address map and the host's pseudo-instructions
(30_encoding.md R90, R92, R93). A pseudo-instruction is the list of lines it expands to. -/

namespace Sys2Proof.Machine

/-- The addresses the register names stand for (20_memory.md R51, 30_encoding.md R90). -/
def cmdAddr : HostAddr := 0x200#10
def lenAddr : HostAddr := 0x201#10
def statusAddr : HostAddr := 0x202#10
def opAddr (k : Nat) : HostAddr := BitVec.ofNat 10 (0x204 + k)
def resAddr (k : Nat) : HostAddr := BitVec.ofNat 10 (0x20C + k)
def bufAddr (i : Nat) : HostAddr := BitVec.ofNat 10 i

/-- `WR <addr>, <byte>` (30_encoding.md R90). -/
def wr (addr : HostAddr) (v : Byte) : HostLine := .bus ⟨true, addr, v⟩

/-- `RD <addr>` (30_encoding.md R90). -/
def rd (addr : HostAddr) : HostLine := .bus ⟨false, addr, 0#8⟩

/-- `POLL`: read STATUS, and again while BUSY = 1 (30_encoding.md R92). -/
def poll : HostLine := .readBranch statusAddr 0x01#8 0

/-- The command byte written to CMD, then POLL. -/
def issue (i : Instr) : List HostLine := [wr cmdAddr (encodeByte i), poll]

/-- `FFT M` (30_encoding.md R93). -/
def pseudoFft (M : Byte) : List HostLine := wr lenAddr M :: issue .fft

/-- `BITREV M` (30_encoding.md R93). -/
def pseudoBitrev (M : Byte) : List HostLine := wr lenAddr M :: issue .bitrev

/-- `MUL a, b` (30_encoding.md R93). -/
def pseudoMul (a b : Byte) : List HostLine :=
  [wr (opAddr 0) a, wr (opAddr 1) b] ++ issue .mul ++ [rd (resAddr 0)]

/-- `ROMRD i` (30_encoding.md R93). -/
def pseudoRomrd (i : Byte) : List HostLine := wr (opAddr 0) i :: issue .romrd ++ [rd (resAddr 0)]

/-- `TWID ph` (30_encoding.md R93). -/
def pseudoTwid (ph : Byte) : List HostLine :=
  wr (opAddr 0) ph :: issue .twid ++ [rd (resAddr 0), rd (resAddr 1)]

/-- `BFLY ar, ai, br, bi, ph` (30_encoding.md R93). -/
def pseudoBfly (ar ai br bi ph : Byte) : List HostLine :=
  [wr (opAddr 0) ar, wr (opAddr 1) ai, wr (opAddr 2) br, wr (opAddr 3) bi, wr (opAddr 4) ph] ++ issue .bfly ++
    [rd (resAddr 0), rd (resAddr 1), rd (resAddr 2), rd (resAddr 3)]

/-- `CLRST`: clear DONE and every sticky flag (30_encoding.md R93). -/
def clrst : HostLine := wr statusAddr 0x3E#8

/-- The 19-bit word of a line that is a transaction; the read of a `readBranch` is one, its branch has no encoding
(30_encoding.md R91). -/
def HostLine.word : HostLine → BitVec 19
  | .bus t => encodeTransaction t
  | .readBranch addr _ _ => encodeTransaction ⟨false, addr, 0#8⟩

end Sys2Proof.Machine
end

