-- ==== Sys2Proof/Machine/Step.lean ====
section
/-! DEFINITION. Machine/Step.lean: one atomic step of the total order of host transactions and engine completions
(20_memory.md R61), and how a command word comes to run. -/

namespace Sys2Proof.Machine

/-- The ENGINE's one step, Complete: enabled exactly when STATUS.BUSY = 1, it runs the command in PENDING as one atomic
step (70_reset_and_hazards.md R245). A turn given to an engine with nothing to complete changes nothing
(60_exceptions.md R217: "When BUSY = 0 it is idle and keeps all state"). DEDUCED, notes/assumptions/1.md. -/
def engineTurn (s : State) : Host.Outcome State Fault Refusal :=
  if s.busy then
    match s.pending with
    | some p => exec p.op s
    | none => .fault .pendingEmpty
  else .next s

/-- One step. `turns` says who moves: any finite interleaving of host moves, engine steps and resets can be laid down
there (20_memory.md R61, 70_reset_and_hazards.md R230, R246). With no turn laid down the engine completes what it has
accepted before the host moves on: the fairness of R247. DESIGN CHOICE,
notes/assumptions/1.md. -/
def step (s : State) : Host.Outcome State Fault Refusal :=
  match s.turns with
  | .host :: ts => .next (hostMove (s.setTurns ts))
  | .engine :: ts => engineTurn (s.setTurns ts)
  | .reset :: ts => .next (resetEngine (s.setTurns ts))
  | [] => if s.busy then engineTurn s else .next (hostMove s)

/-- The state in which the very next step runs the command of a table word: the engine has accepted the command
(30_encoding.md R82) and the engine moves next. A word that is no command stands in the host's program as the byte of
its next CMD write, and the host moves next. DESIGN CHOICE, notes/assumptions/8.md. -/
def State.withFetchWord (s : State) (nbits w : Nat) : State :=
  match decodeTableWord nbits w with
  | some i => (accept i s).setTurns (.engine :: s.turns)
  | none =>
    (s.setHost { s.host with program := [wr cmdAddr (BitVec.ofNat 8 (w % 2 ^ nbits))], line := 0 }).setTurns
      (.host :: s.turns)

end Sys2Proof.Machine
end

