-- ==== Sys2Proof/Laws/State.lean ====
section
/-! SUPPORT. Laws/State.lean: one lemma per field per update, so that no proof unfolds a record update. -/

namespace Sys2Proof.Machine

variable (s : State)

/-! ### setBuf -/
@[simp] theorem State.setBuf_buf (m : Memory) : (s.setBuf m).buf = m := rfl
@[simp] theorem State.setBuf_im (m : Memory) : (s.setBuf m).im = s.im := rfl
@[simp] theorem State.setBuf_rom (m : Memory) : (s.setBuf m).rom = s.rom := rfl
@[simp] theorem State.setBuf_len (m : Memory) : (s.setBuf m).len = s.len := rfl
@[simp] theorem State.setBuf_status (m : Memory) : (s.setBuf m).status = s.status := rfl
@[simp] theorem State.setBuf_ops (m : Memory) : (s.setBuf m).ops = s.ops := rfl
@[simp] theorem State.setBuf_res (m : Memory) : (s.setBuf m).res = s.res := rfl
@[simp] theorem State.setBuf_pending (m : Memory) : (s.setBuf m).pending = s.pending := rfl
@[simp] theorem State.setBuf_host (m : Memory) : (s.setBuf m).host = s.host := rfl
@[simp] theorem State.setBuf_turns (m : Memory) : (s.setBuf m).turns = s.turns := rfl
@[simp] theorem State.setBuf_draws (m : Memory) : (s.setBuf m).draws = s.draws := rfl

/-! ### setIm -/
@[simp] theorem State.setIm_buf (m : Memory) : (s.setIm m).buf = s.buf := rfl
@[simp] theorem State.setIm_im (m : Memory) : (s.setIm m).im = m := rfl
@[simp] theorem State.setIm_rom (m : Memory) : (s.setIm m).rom = s.rom := rfl
@[simp] theorem State.setIm_len (m : Memory) : (s.setIm m).len = s.len := rfl
@[simp] theorem State.setIm_status (m : Memory) : (s.setIm m).status = s.status := rfl
@[simp] theorem State.setIm_ops (m : Memory) : (s.setIm m).ops = s.ops := rfl
@[simp] theorem State.setIm_res (m : Memory) : (s.setIm m).res = s.res := rfl
@[simp] theorem State.setIm_pending (m : Memory) : (s.setIm m).pending = s.pending := rfl
@[simp] theorem State.setIm_host (m : Memory) : (s.setIm m).host = s.host := rfl
@[simp] theorem State.setIm_turns (m : Memory) : (s.setIm m).turns = s.turns := rfl
@[simp] theorem State.setIm_draws (m : Memory) : (s.setIm m).draws = s.draws := rfl

/-! ### setLen -/
@[simp] theorem State.setLen_buf (v : Byte) : (s.setLen v).buf = s.buf := rfl
@[simp] theorem State.setLen_im (v : Byte) : (s.setLen v).im = s.im := rfl
@[simp] theorem State.setLen_rom (v : Byte) : (s.setLen v).rom = s.rom := rfl
@[simp] theorem State.setLen_len (v : Byte) : (s.setLen v).len = v := rfl
@[simp] theorem State.setLen_status (v : Byte) : (s.setLen v).status = s.status := rfl
@[simp] theorem State.setLen_ops (v : Byte) : (s.setLen v).ops = s.ops := rfl
@[simp] theorem State.setLen_res (v : Byte) : (s.setLen v).res = s.res := rfl
@[simp] theorem State.setLen_pending (v : Byte) : (s.setLen v).pending = s.pending := rfl
@[simp] theorem State.setLen_host (v : Byte) : (s.setLen v).host = s.host := rfl
@[simp] theorem State.setLen_turns (v : Byte) : (s.setLen v).turns = s.turns := rfl
@[simp] theorem State.setLen_draws (v : Byte) : (s.setLen v).draws = s.draws := rfl

/-! ### setStatus -/
@[simp] theorem State.setStatus_buf (v : Byte) : (s.setStatus v).buf = s.buf := rfl
@[simp] theorem State.setStatus_im (v : Byte) : (s.setStatus v).im = s.im := rfl
@[simp] theorem State.setStatus_rom (v : Byte) : (s.setStatus v).rom = s.rom := rfl
@[simp] theorem State.setStatus_len (v : Byte) : (s.setStatus v).len = s.len := rfl
@[simp] theorem State.setStatus_status (v : Byte) : (s.setStatus v).status = v := rfl
@[simp] theorem State.setStatus_ops (v : Byte) : (s.setStatus v).ops = s.ops := rfl
@[simp] theorem State.setStatus_res (v : Byte) : (s.setStatus v).res = s.res := rfl
@[simp] theorem State.setStatus_pending (v : Byte) : (s.setStatus v).pending = s.pending := rfl
@[simp] theorem State.setStatus_host (v : Byte) : (s.setStatus v).host = s.host := rfl
@[simp] theorem State.setStatus_turns (v : Byte) : (s.setStatus v).turns = s.turns := rfl
@[simp] theorem State.setStatus_draws (v : Byte) : (s.setStatus v).draws = s.draws := rfl

/-! ### setOps -/
@[simp] theorem State.setOps_buf (o : Operands) : (s.setOps o).buf = s.buf := rfl
@[simp] theorem State.setOps_im (o : Operands) : (s.setOps o).im = s.im := rfl
@[simp] theorem State.setOps_rom (o : Operands) : (s.setOps o).rom = s.rom := rfl
@[simp] theorem State.setOps_len (o : Operands) : (s.setOps o).len = s.len := rfl
@[simp] theorem State.setOps_status (o : Operands) : (s.setOps o).status = s.status := rfl
@[simp] theorem State.setOps_ops (o : Operands) : (s.setOps o).ops = o := rfl
@[simp] theorem State.setOps_res (o : Operands) : (s.setOps o).res = s.res := rfl
@[simp] theorem State.setOps_pending (o : Operands) : (s.setOps o).pending = s.pending := rfl
@[simp] theorem State.setOps_host (o : Operands) : (s.setOps o).host = s.host := rfl
@[simp] theorem State.setOps_turns (o : Operands) : (s.setOps o).turns = s.turns := rfl
@[simp] theorem State.setOps_draws (o : Operands) : (s.setOps o).draws = s.draws := rfl

/-! ### setRes -/
@[simp] theorem State.setRes_buf (r : Results) : (s.setRes r).buf = s.buf := rfl
@[simp] theorem State.setRes_im (r : Results) : (s.setRes r).im = s.im := rfl
@[simp] theorem State.setRes_rom (r : Results) : (s.setRes r).rom = s.rom := rfl
@[simp] theorem State.setRes_len (r : Results) : (s.setRes r).len = s.len := rfl
@[simp] theorem State.setRes_status (r : Results) : (s.setRes r).status = s.status := rfl
@[simp] theorem State.setRes_ops (r : Results) : (s.setRes r).ops = s.ops := rfl
@[simp] theorem State.setRes_res (r : Results) : (s.setRes r).res = r := rfl
@[simp] theorem State.setRes_pending (r : Results) : (s.setRes r).pending = s.pending := rfl
@[simp] theorem State.setRes_host (r : Results) : (s.setRes r).host = s.host := rfl
@[simp] theorem State.setRes_turns (r : Results) : (s.setRes r).turns = s.turns := rfl
@[simp] theorem State.setRes_draws (r : Results) : (s.setRes r).draws = s.draws := rfl

/-! ### setPending -/
@[simp] theorem State.setPending_buf (p : Option Pending) : (s.setPending p).buf = s.buf := rfl
@[simp] theorem State.setPending_im (p : Option Pending) : (s.setPending p).im = s.im := rfl
@[simp] theorem State.setPending_rom (p : Option Pending) : (s.setPending p).rom = s.rom := rfl
@[simp] theorem State.setPending_len (p : Option Pending) : (s.setPending p).len = s.len := rfl
@[simp] theorem State.setPending_status (p : Option Pending) : (s.setPending p).status = s.status := rfl
@[simp] theorem State.setPending_ops (p : Option Pending) : (s.setPending p).ops = s.ops := rfl
@[simp] theorem State.setPending_res (p : Option Pending) : (s.setPending p).res = s.res := rfl
@[simp] theorem State.setPending_pending (p : Option Pending) : (s.setPending p).pending = p := rfl
@[simp] theorem State.setPending_host (p : Option Pending) : (s.setPending p).host = s.host := rfl
@[simp] theorem State.setPending_turns (p : Option Pending) : (s.setPending p).turns = s.turns := rfl
@[simp] theorem State.setPending_draws (p : Option Pending) : (s.setPending p).draws = s.draws := rfl

/-! ### setHost -/
@[simp] theorem State.setHost_buf (h : HostAgent) : (s.setHost h).buf = s.buf := rfl
@[simp] theorem State.setHost_im (h : HostAgent) : (s.setHost h).im = s.im := rfl
@[simp] theorem State.setHost_rom (h : HostAgent) : (s.setHost h).rom = s.rom := rfl
@[simp] theorem State.setHost_len (h : HostAgent) : (s.setHost h).len = s.len := rfl
@[simp] theorem State.setHost_status (h : HostAgent) : (s.setHost h).status = s.status := rfl
@[simp] theorem State.setHost_ops (h : HostAgent) : (s.setHost h).ops = s.ops := rfl
@[simp] theorem State.setHost_res (h : HostAgent) : (s.setHost h).res = s.res := rfl
@[simp] theorem State.setHost_pending (h : HostAgent) : (s.setHost h).pending = s.pending := rfl
@[simp] theorem State.setHost_host (h : HostAgent) : (s.setHost h).host = h := rfl
@[simp] theorem State.setHost_turns (h : HostAgent) : (s.setHost h).turns = s.turns := rfl
@[simp] theorem State.setHost_draws (h : HostAgent) : (s.setHost h).draws = s.draws := rfl

/-! ### setTurns -/
@[simp] theorem State.setTurns_buf (ts : List Turn) : (s.setTurns ts).buf = s.buf := rfl
@[simp] theorem State.setTurns_im (ts : List Turn) : (s.setTurns ts).im = s.im := rfl
@[simp] theorem State.setTurns_rom (ts : List Turn) : (s.setTurns ts).rom = s.rom := rfl
@[simp] theorem State.setTurns_len (ts : List Turn) : (s.setTurns ts).len = s.len := rfl
@[simp] theorem State.setTurns_status (ts : List Turn) : (s.setTurns ts).status = s.status := rfl
@[simp] theorem State.setTurns_ops (ts : List Turn) : (s.setTurns ts).ops = s.ops := rfl
@[simp] theorem State.setTurns_res (ts : List Turn) : (s.setTurns ts).res = s.res := rfl
@[simp] theorem State.setTurns_pending (ts : List Turn) : (s.setTurns ts).pending = s.pending := rfl
@[simp] theorem State.setTurns_host (ts : List Turn) : (s.setTurns ts).host = s.host := rfl
@[simp] theorem State.setTurns_turns (ts : List Turn) : (s.setTurns ts).turns = ts := rfl
@[simp] theorem State.setTurns_draws (ts : List Turn) : (s.setTurns ts).draws = s.draws := rfl

/-! ### setDraws -/
@[simp] theorem State.setDraws_buf (n : Nat) : (s.setDraws n).buf = s.buf := rfl
@[simp] theorem State.setDraws_im (n : Nat) : (s.setDraws n).im = s.im := rfl
@[simp] theorem State.setDraws_rom (n : Nat) : (s.setDraws n).rom = s.rom := rfl
@[simp] theorem State.setDraws_len (n : Nat) : (s.setDraws n).len = s.len := rfl
@[simp] theorem State.setDraws_status (n : Nat) : (s.setDraws n).status = s.status := rfl
@[simp] theorem State.setDraws_ops (n : Nat) : (s.setDraws n).ops = s.ops := rfl
@[simp] theorem State.setDraws_res (n : Nat) : (s.setDraws n).res = s.res := rfl
@[simp] theorem State.setDraws_pending (n : Nat) : (s.setDraws n).pending = s.pending := rfl
@[simp] theorem State.setDraws_host (n : Nat) : (s.setDraws n).host = s.host := rfl
@[simp] theorem State.setDraws_turns (n : Nat) : (s.setDraws n).turns = s.turns := rfl
@[simp] theorem State.setDraws_draws (n : Nat) : (s.setDraws n).draws = n := rfl

/-! ### raise -/
@[simp] theorem State.raise_buf (f : Flag) : (s.raise f).buf = s.buf := rfl
@[simp] theorem State.raise_im (f : Flag) : (s.raise f).im = s.im := rfl
@[simp] theorem State.raise_rom (f : Flag) : (s.raise f).rom = s.rom := rfl
@[simp] theorem State.raise_len (f : Flag) : (s.raise f).len = s.len := rfl
@[simp] theorem State.raise_status (f : Flag) : (s.raise f).status = setFlag f s.status := rfl
@[simp] theorem State.raise_ops (f : Flag) : (s.raise f).ops = s.ops := rfl
@[simp] theorem State.raise_res (f : Flag) : (s.raise f).res = s.res := rfl
@[simp] theorem State.raise_pending (f : Flag) : (s.raise f).pending = s.pending := rfl
@[simp] theorem State.raise_host (f : Flag) : (s.raise f).host = s.host := rfl
@[simp] theorem State.raise_turns (f : Flag) : (s.raise f).turns = s.turns := rfl
@[simp] theorem State.raise_draws (f : Flag) : (s.raise f).draws = s.draws := rfl

/-! ### raiseIf -/
@[simp] theorem State.raiseIf_buf (c : Bool) (f : Flag) : (s.raiseIf c f).buf = s.buf := rfl
@[simp] theorem State.raiseIf_im (c : Bool) (f : Flag) : (s.raiseIf c f).im = s.im := rfl
@[simp] theorem State.raiseIf_rom (c : Bool) (f : Flag) : (s.raiseIf c f).rom = s.rom := rfl
@[simp] theorem State.raiseIf_len (c : Bool) (f : Flag) : (s.raiseIf c f).len = s.len := rfl
@[simp] theorem State.raiseIf_status (c : Bool) (f : Flag) : (s.raiseIf c f).status = setFlagIf c f s.status := rfl
@[simp] theorem State.raiseIf_ops (c : Bool) (f : Flag) : (s.raiseIf c f).ops = s.ops := rfl
@[simp] theorem State.raiseIf_res (c : Bool) (f : Flag) : (s.raiseIf c f).res = s.res := rfl
@[simp] theorem State.raiseIf_pending (c : Bool) (f : Flag) : (s.raiseIf c f).pending = s.pending := rfl
@[simp] theorem State.raiseIf_host (c : Bool) (f : Flag) : (s.raiseIf c f).host = s.host := rfl
@[simp] theorem State.raiseIf_turns (c : Bool) (f : Flag) : (s.raiseIf c f).turns = s.turns := rfl
@[simp] theorem State.raiseIf_draws (c : Bool) (f : Flag) : (s.raiseIf c f).draws = s.draws := rfl

/-! ### finish -/
@[simp] theorem State.finish_buf : (s.finish).buf = s.buf := rfl
@[simp] theorem State.finish_im : (s.finish).im = s.im := rfl
@[simp] theorem State.finish_rom : (s.finish).rom = s.rom := rfl
@[simp] theorem State.finish_len : (s.finish).len = s.len := rfl
@[simp] theorem State.finish_status : (s.finish).status = statusAfterComplete s.status := rfl
@[simp] theorem State.finish_ops : (s.finish).ops = s.ops := rfl
@[simp] theorem State.finish_res : (s.finish).res = s.res := rfl
@[simp] theorem State.finish_pending : (s.finish).pending = none := rfl
@[simp] theorem State.finish_host : (s.finish).host = s.host := rfl
@[simp] theorem State.finish_turns : (s.finish).turns = s.turns := rfl
@[simp] theorem State.finish_draws : (s.finish).draws = s.draws := rfl

/-! ### goto -/
@[simp] theorem State.goto_buf (n : Nat) : (s.goto n).buf = s.buf := rfl
@[simp] theorem State.goto_im (n : Nat) : (s.goto n).im = s.im := rfl
@[simp] theorem State.goto_rom (n : Nat) : (s.goto n).rom = s.rom := rfl
@[simp] theorem State.goto_len (n : Nat) : (s.goto n).len = s.len := rfl
@[simp] theorem State.goto_status (n : Nat) : (s.goto n).status = s.status := rfl
@[simp] theorem State.goto_ops (n : Nat) : (s.goto n).ops = s.ops := rfl
@[simp] theorem State.goto_res (n : Nat) : (s.goto n).res = s.res := rfl
@[simp] theorem State.goto_pending (n : Nat) : (s.goto n).pending = s.pending := rfl
@[simp] theorem State.goto_host (n : Nat) : (s.goto n).host = { s.host with line := n } := rfl
@[simp] theorem State.goto_turns (n : Nat) : (s.goto n).turns = s.turns := rfl
@[simp] theorem State.goto_draws (n : Nat) : (s.goto n).draws = s.draws := rfl

/-! ### reply -/
@[simp] theorem State.reply_buf (v : Byte) : (s.reply v).buf = s.buf := rfl
@[simp] theorem State.reply_im (v : Byte) : (s.reply v).im = s.im := rfl
@[simp] theorem State.reply_rom (v : Byte) : (s.reply v).rom = s.rom := rfl
@[simp] theorem State.reply_len (v : Byte) : (s.reply v).len = s.len := rfl
@[simp] theorem State.reply_status (v : Byte) : (s.reply v).status = s.status := rfl
@[simp] theorem State.reply_ops (v : Byte) : (s.reply v).ops = s.ops := rfl
@[simp] theorem State.reply_res (v : Byte) : (s.reply v).res = s.res := rfl
@[simp] theorem State.reply_pending (v : Byte) : (s.reply v).pending = s.pending := rfl
@[simp] theorem State.reply_host (v : Byte) : (s.reply v).host = { s.host with replies := v :: s.host.replies } := rfl
@[simp] theorem State.reply_turns (v : Byte) : (s.reply v).turns = s.turns := rfl
@[simp] theorem State.reply_draws (v : Byte) : (s.reply v).draws = s.draws := rfl

/-! ### accept -/
@[simp] theorem accept_buf (i : Instr) : (accept i s).buf = s.buf := rfl
@[simp] theorem accept_im (i : Instr) : (accept i s).im = s.im := rfl
@[simp] theorem accept_rom (i : Instr) : (accept i s).rom = s.rom := rfl
@[simp] theorem accept_len (i : Instr) : (accept i s).len = s.len := rfl
@[simp] theorem accept_status (i : Instr) : (accept i s).status = statusAfterAccept s.status := rfl
@[simp] theorem accept_ops (i : Instr) : (accept i s).ops = s.ops := rfl
@[simp] theorem accept_res (i : Instr) : (accept i s).res = s.res := rfl
@[simp] theorem accept_pending (i : Instr) : (accept i s).pending = some (s.latch i) := rfl
@[simp] theorem accept_host (i : Instr) : (accept i s).host = s.host := rfl
@[simp] theorem accept_turns (i : Instr) : (accept i s).turns = s.turns := rfl
@[simp] theorem accept_draws (i : Instr) : (accept i s).draws = s.draws := rfl

/-! ### resetEngine -/
@[simp] theorem resetEngine_buf : (resetEngine s).buf = loseBytes (lostExtent s.pending) s.draws s.buf := rfl
@[simp] theorem resetEngine_im : (resetEngine s).im = [] := rfl
@[simp] theorem resetEngine_rom : (resetEngine s).rom = s.rom := rfl
@[simp] theorem resetEngine_len : (resetEngine s).len = 0#8 := rfl
@[simp] theorem resetEngine_status : (resetEngine s).status = 0#8 := rfl
@[simp] theorem resetEngine_ops : (resetEngine s).ops = ⟨0#8, 0#8, 0#8, 0#8, 0#8⟩ := rfl
@[simp] theorem resetEngine_res : (resetEngine s).res = ⟨0#8, 0#8, 0#8, 0#8⟩ := rfl
@[simp] theorem resetEngine_pending : (resetEngine s).pending = none := rfl
@[simp] theorem resetEngine_host : (resetEngine s).host = s.host := rfl
@[simp] theorem resetEngine_turns : (resetEngine s).turns = s.turns := rfl
@[simp] theorem resetEngine_draws : (resetEngine s).draws = s.draws + lostExtent s.pending := rfl

/-! ### an update over an earlier one of the same field -/
@[simp] theorem State.setTurns_setTurns (ts us : List Turn) :
    (s.setTurns ts).setTurns us = s.setTurns us := rfl
@[simp] theorem State.setHost_setHost (g h : HostAgent) : (s.setHost g).setHost h = s.setHost h := rfl
@[simp] theorem State.setStatus_setStatus (v w : Byte) :
    (s.setStatus v).setStatus w = s.setStatus w := rfl

end Sys2Proof.Machine
end

