-- ==== Sys2Proof/Safety.lean ====
section
/-! DEFINITION. Safety.lean: the invariant of the machine, safe steps, the end of a run and what is observed there. -/

namespace Sys2Proof.Machine

/-- What holds at reset and after every step.
- `bufWf`, `imWf`: the stores keep their canonical form.
- `lenReserved`, `statusReserved`: LEN[7:4] and STATUS[7:6] read as 0 (20_memory.md R58).
- `busyIffPending`: PENDING holds a command exactly while BUSY = 1 (10_state.md R33).
- `latched`: the latched M and operands are those of the live registers (10_state.md R33).
- `busyNotDone`: BUSY and DONE are never both set (10_state.md R25).
- `romAdmissible`: the sine table is non-decreasing (00_scope.md R9). -/
structure State.Inv (s : State) : Prop where
  bufWf          : s.buf.wf
  imWf           : s.im.wf
  lenReserved    : s.len.extractLsb' 4 4 = 0#4
  statusReserved : s.status.extractLsb' 6 2 = 0#2
  busyIffPending : s.busy = s.pending.isSome
  latched        : ∀ p, s.pending = some p → p = s.latch p.op
  busyNotDone    : ¬ (s.busy = true ∧ s.has .done = true)
  romAdmissible  : s.rom.Admissible

/-- A step is safe when it answers a next state: no fault and no refusal. -/
def State.SafeStep (s : State) : Prop := ∃ t, step s = .next t

/-- The sticky error flags, STATUS[5:2] (60_exceptions.md R201, R209). -/
def Flag.isError : Flag → Bool
  | .busy => false
  | .done => false
  | .sizeErr => true
  | .ovf => true
  | .cmdErr => true
  | .accErr => true

/-- "no error flag set" as "no fault recorded" (60_exceptions.md R209). -/
def State.NoFaultRecorded (s : State) : Prop := ∀ f : Flag, f.isError = true → s.has f = false

/-- The end of a run: the host has issued its last transaction and BUSY = 0 (70_reset_and_hazards.md R248). -/
def State.RunEnded (s : State) : Prop := s.host.program.length ≤ s.host.line ∧ s.busy = false

/-- What is observed of a run: BUF, LEN, STATUS, OPx and RES, and not IM (70_reset_and_hazards.md R248). -/
structure Observation where
  buf    : List Byte
  len    : Byte
  status : Byte
  ops    : Operands
  res    : Results
  deriving DecidableEq, Repr

/-- The observation of a state. -/
def State.observe (s : State) : Observation where
  buf := (List.range 256).map s.bufByte
  len := s.len
  status := s.status
  ops := s.ops
  res := s.res

end Sys2Proof.Machine
end

