-- ==== Sys2Proof/Certificates/Slice0/Obligations.lean ====
section
/-! DEFINITION. Certificates/Slice0/Obligations.lean: the statements about the model, for the provers. -/

namespace Sys2Proof.Machine

/-- STATUS.BUSY = 1 and PENDING holds the command `i` as `p`: the engine's Complete step is enabled and runs `i`
(70_reset_and_hazards.md R245). -/
def State.Holds (s : State) (i : Instr) (p : Pending) : Prop :=
  s.busy = true ∧ s.pending = some p ∧ p.op = i

/-- The CMD byte `v`, written while idle, is accepted as `i` with the operands of that moment (30_encoding.md R82). -/
def AcceptedAs (i : Instr) (v : Byte) : Prop :=
  ∀ s : State, s.busy = false →
    (memWrite cmdAddr v s).busy = true ∧
      (memWrite cmdAddr v s).pending = some ⟨i, s.len.extractLsb' 0 4, s.ops⟩

/-- What a completion does to everything but BUF, IM and RES: PENDING emptied, BUSY cleared, DONE set, SIZE_ERR and OVF
set where `size` and `ovf` say, the other flags and the reserved bits as before, and all else as before. -/
structure Completes (s t : State) (size ovf : Bool) : Prop where
  rom      : t.rom = s.rom
  len      : t.len = s.len
  ops      : t.ops = s.ops
  host     : t.host = s.host
  turns    : t.turns = s.turns
  draws    : t.draws = s.draws
  pending  : t.pending = none
  busy     : t.has .busy = false
  done     : t.has .done = true
  sizeErr  : t.has .sizeErr = (s.has .sizeErr || size)
  ovfFlag  : t.has .ovf = (s.has .ovf || ovf)
  cmdErr   : t.has .cmdErr = s.has .cmdErr
  accErr   : t.has .accErr = s.has .accErr
  reserved : t.status.extractLsb' 6 2 = s.status.extractLsb' 6 2

/-- An access the busy engine refuses: a BUF read or write, or a CMD, LEN or OPx write (60_exceptions.md R205). -/
def Refusable (t : Transaction) : Prop :=
  t.addr.toNat ≤ 0x0FF ∨
    (t.write = true ∧ (t.addr.toNat = 0x200 ∨ t.addr.toNat = 0x201 ∨
      (0x204 ≤ t.addr.toNat ∧ t.addr.toNat ≤ 0x208)))

/-- The host's current line writes the byte `v` to `addr`. -/
def State.HostWrites (s : State) (addr : HostAddr) (v : Byte) : Prop :=
  s.host.program[s.host.line]? = some (.bus ⟨true, addr, v⟩)

/-- The recursive decimation-in-time transform of 2^m complex byte samples (00_scope.md R17, 43_butterfly.md R168): the
transforms of the even and the odd samples, joined by one butterfly a bin with phase i·2^(7−m). It knows nothing of
passes, of bit reversal or of the buffer. -/
def ditRec (r : SineRom) : Nat → (Nat → Byte × Byte) → Nat → Byte × Byte
  | 0, x, _ => x 0
  | m + 1, x, i =>
    let j := i % 2 ^ m
    let e := ditRec r m (fun n => x (2 * n)) j
    let o := ditRec r m (fun n => x (2 * n + 1)) j
    let y := butterfly r (int8 e.1) (int8 e.2) (int8 o.1) (int8 o.2) (j * 2 ^ (7 - m))
    if i < 2 ^ m then (storedByte y.topRe, storedByte y.topIm)
    else (storedByte y.botRe, storedByte y.botIm)

end Sys2Proof.Machine

open Sys2Proof Sys2Proof.Machine

/-! ### Encoding -/

/-- 30_encoding.md R84: six words written out from the opcode map decode to their commands, and three illegal ones are
rejected by name. -/
def Obligations.WrittenOutWordsDecode : Prop :=
  decode [0b00000001#8] = .ok (.fft, []) ∧ decode [0b00000010#8] = .ok (.bitrev, []) ∧
  decode [0b00000011#8] = .ok (.mul, []) ∧ decode [0b00000100#8] = .ok (.romrd, []) ∧
  decode [0b00000101#8] = .ok (.twid, []) ∧ decode [0b00000110#8] = .ok (.bfly, []) ∧
  decode [0b00000000#8] = .error .reservedOp ∧ decode [0b00000111#8] = .error .reservedOp ∧
  decode [0b00010001#8] = .error .reservedZ

/-- 30_encoding.md R80, R83, R87: decoding an encoded command gives it back with the bytes after it, and a byte decodes
exactly when it is one of 0x01..0x06. -/
def Obligations.CommandEncodingRoundTrip : Prop :=
  (∀ (i : Instr) (rest : List Byte), decode (encode i ++ rest) = .ok (i, rest)) ∧
  (∀ i : Instr, decodeTableWord 8 (encodeByte i).toNat = some i) ∧
  (∀ (v : Byte) (i : Instr), decodeByte v = .ok i → encodeByte i = v) ∧
  (∀ v : Byte, (∃ i, decodeByte v = .ok i) ↔ 1 ≤ v.toNat ∧ v.toNat ≤ 6)

/-- 30_encoding.md R91: transactions and 19-bit words stand for each other, field by field, with the rule's two
examples. That a read word whose data field is not 0 decodes to nothing is the model's reading of R91, which gives only
the encoding (DEDUCED, log entry 12). -/
def Obligations.TransactionWordRoundTrip : Prop :=
  (∀ t : Transaction, t.wellFormed = true → decodeTransaction (encodeTransaction t) = .ok t) ∧
  (∀ (w : BitVec 19) (t : Transaction), decodeTransaction w = .ok t →
    t.wellFormed = true ∧ encodeTransaction t = w) ∧
  (∀ t : Transaction, (encodeTransaction t).toNat =
    (if t.write then 1 else 0) * 2 ^ 18 + t.addr.toNat * 2 ^ 8 + t.data.toNat) ∧
  (wr cmdAddr 0x01#8).word = 0x60001#19 ∧ (rd statusAddr).word = 0x20200#19

/-! ### The host port -/

/-- 20_memory.md R52: the byte every address returns, and that a read changes no state except the ACC_ERR of a refused
BUF read. -/
def Obligations.BusReadReturnsTheMappedByte : Prop :=
  ∀ s : State,
  (∀ i < 256, s.busy = false → memRead (bufAddr i) s = (s.bufByte i, s)) ∧
  (∀ i < 256, s.busy = true → memRead (bufAddr i) s = (0x00#8, { s with status := s.status ||| 0x20#8 })) ∧
  memRead 0x200#10 s = (0x00#8, s) ∧ memRead 0x201#10 s = (s.len, s) ∧ memRead 0x202#10 s = (s.status, s) ∧
  memRead 0x204#10 s = (s.ops.a, s) ∧ memRead 0x205#10 s = (s.ops.b, s) ∧ memRead 0x206#10 s = (s.ops.c, s) ∧
  memRead 0x207#10 s = (s.ops.d, s) ∧ memRead 0x208#10 s = (s.ops.e, s) ∧
  memRead 0x20C#10 s = (s.res.r0, s) ∧ memRead 0x20D#10 s = (s.res.r1, s) ∧
  memRead 0x20E#10 s = (s.res.r2, s) ∧ memRead 0x20F#10 s = (s.res.r3, s) ∧
  (∀ a : HostAddr, (0x100 ≤ a.toNat ∧ a.toNat ≤ 0x1FF) ∨ a.toNat = 0x203 ∨
    (0x209 ≤ a.toNat ∧ a.toNat ≤ 0x20B) ∨ 0x210 ≤ a.toNat → memRead a s = (0x00#8, s))

/-- 20_memory.md R53: what a write to every address does, and that it does nothing else. The CMD write of an idle
engine is in `CmdWriteAcceptsOrFlags`, the STATUS write in `StatusWriteClearsTheOnes`. -/
def Obligations.BusWriteHasTheMappedEffect : Prop :=
  ∀ (s : State) (v : Byte),
  (∀ i < 256, s.busy = false →
    (∀ a, (memWrite (bufAddr i) v s).bufByte a = if a = i then v else s.bufByte a) ∧
    (memWrite (bufAddr i) v s).setBuf s.buf = s) ∧
  (s.busy = true → ∀ a : HostAddr, a.toNat ≤ 0x201 ∧ (a.toNat ≤ 0x0FF ∨ 0x200 ≤ a.toNat) ∨
      (0x204 ≤ a.toNat ∧ a.toNat ≤ 0x208) →
    memWrite a v s = { s with status := s.status ||| 0x20#8 }) ∧
  (s.busy = false →
    (memWrite 0x201#10 v s).len.toNat = v.toNat % 16 ∧ (memWrite 0x201#10 v s).setLen s.len = s ∧
    memWrite 0x204#10 v s = { s with ops := { s.ops with a := v } } ∧
    memWrite 0x205#10 v s = { s with ops := { s.ops with b := v } } ∧
    memWrite 0x206#10 v s = { s with ops := { s.ops with c := v } } ∧
    memWrite 0x207#10 v s = { s with ops := { s.ops with d := v } } ∧
    memWrite 0x208#10 v s = { s with ops := { s.ops with e := v } }) ∧
  (∀ a : HostAddr, (0x100 ≤ a.toNat ∧ a.toNat ≤ 0x1FF) ∨ a.toNat = 0x203 ∨
    (0x209 ≤ a.toNat ∧ a.toNat ≤ 0x3FF) → memWrite a v s = s)

/-- 30_encoding.md R81, R82, R83 and 60_exceptions.md R204: a CMD write while idle accepts 0x01..0x06 and sets CMD_ERR
for every other byte; nothing else changes. While busy any byte sets ACC_ERR and no CMD_ERR. -/
def Obligations.CmdWriteAcceptsOrFlags : Prop :=
  ∀ (s : State) (v : Byte),
  (s.busy = false → ∀ i : Instr, decodeByte v = .ok i →
    memWrite cmdAddr v s =
      { s with
        pending := some ⟨i, s.len.extractLsb' 0 4, s.ops⟩
        status := (s.status &&& ~~~0x02#8) ||| 0x01#8 }) ∧
  (s.busy = false → v.toNat = 0 ∨ 7 ≤ v.toNat →
    memWrite cmdAddr v s = { s with status := s.status ||| 0x10#8 }) ∧
  (s.busy = false → 1 ≤ v.toNat → v.toNat ≤ 6 → (memWrite cmdAddr v s).busy = true) ∧
  (s.busy = true → memWrite cmdAddr v s = { s with status := s.status ||| 0x20#8 })

/-- 10_state.md R26: a STATUS write clears the flags written with 1, whatever BUSY is; BUSY, the reserved bits and
everything else stay. -/
def Obligations.StatusWriteClearsTheOnes : Prop :=
  ∀ (s : State) (v : Byte),
  (∀ f : Flag, f ≠ .busy → (memWrite statusAddr v s).has f = (s.has f && !v.getLsbD f.bit)) ∧
  (memWrite statusAddr v s).busy = s.busy ∧
  (memWrite statusAddr v s).status.extractLsb' 6 2 = s.status.extractLsb' 6 2 ∧
  (memWrite statusAddr v s).setStatus s.status = s

/-- 60_exceptions.md R205: while BUSY an access of the refused list has no effect but ACC_ERR, a read of it returning
0x00, and no other access, and none while idle, ever sets ACC_ERR. -/
def Obligations.RefusedAccessesOnlySetAccErr : Prop :=
  ∀ (s : State) (t : Transaction),
  (s.busy = true → Refusable t →
    (transact t s).setHost s.host = { s with status := s.status ||| 0x20#8 } ∧
    (transact t s).host = (if t.write then s.host else { s.host with replies := 0x00#8 :: s.host.replies })) ∧
  (¬ (s.busy = true ∧ Refusable t) → (transact t s).has .accErr = true → s.has .accErr = true)

/-- The whole-machine reading of 20_memory.md R57 and R64: while a command is in flight no host move changes BUF, IM,
LEN, an operand or result register, or PENDING, and none ends the command. -/
def Obligations.HostCannotDisturbACommand : Prop :=
  ∀ s : State, s.busy = true →
    ((hostMove s).setStatus s.status).setHost s.host = s ∧ (hostMove s).busy = true

/-- 60_exceptions.md R206: one host transaction newly raises at most one error flag, and one completion never newly
raises both SIZE_ERR and OVF. -/
def Obligations.AtMostOneConditionPerStep : Prop :=
  (∀ (s : State) (t : Transaction) (f g : Flag), f.isError = true → g.isError = true →
    s.has f = false → (transact t s).has f = true → s.has g = false → (transact t s).has g = true → f = g) ∧
  (∀ (s t : State) (i : Instr), exec i s = .next t →
    ¬ (s.has .sizeErr = false ∧ t.has .sizeErr = true ∧ s.has .ovf = false ∧ t.has .ovf = true))

/-- 30_encoding.md R92: POLL returns STATUS to the host, stays at its line while BUSY = 1 and goes on when BUSY = 0, and
changes nothing else. -/
def Obligations.PollWaitsForIdle : Prop :=
  ∀ s : State, s.host.program[s.host.line]? = some poll →
    (hostMove s).host.replies = s.status :: s.host.replies ∧
    (hostMove s).host.line = (if s.busy then s.host.line else s.host.line + 1) ∧
    (hostMove s).host.program = s.host.program ∧ (hostMove s).setHost s.host = s

/-! ### Steps -/

/-- 70_reset_and_hazards.md R245, 20_memory.md R61: a step is the move of the agent whose turn it is; an engine turn
with BUSY = 1 runs the command in PENDING, and with BUSY = 0 changes nothing; with no turn laid down the engine moves
while BUSY = 1 and the host otherwise. -/
def Obligations.StepRunsThePendingCommand : Prop :=
  ∀ (s : State) (ts : List Turn),
  (∀ p, s.busy = true → s.pending = some p →
    step (s.setTurns (.engine :: ts)) = exec p.op (s.setTurns ts) ∧
    step (s.setTurns []) = exec p.op (s.setTurns [])) ∧
  (s.busy = false →
    step (s.setTurns (.engine :: ts)) = .next (s.setTurns ts) ∧
    step (s.setTurns []) = .next (hostMove (s.setTurns []))) ∧
  step (s.setTurns (.host :: ts)) = .next (hostMove (s.setTurns ts)) ∧
  step (s.setTurns (.reset :: ts)) = .next (resetEngine (s.setTurns ts))

/-- The word of a command, placed by `withFetchWord`, is accepted and run by the very next step. -/
def Obligations.FetchedWordRunsNext : Prop :=
  ∀ (s : State) (nbits w : Nat) (i : Instr), decodeTableWord nbits w = some i →
    step (s.withFetchWord nbits w) = exec i (accept i s)

/-- The model's own reading of a command run while PENDING is empty (log entry 4): accepted and completed at once. -/
def Obligations.IdleExecIsAcceptThenComplete : Prop :=
  ∀ (s : State) (i : Instr), s.pending = none → exec i s = exec i (accept i s)

/-- 10_state.md R33: "Completion reads PENDING only; it never reads the live registers": other LEN and OPx give the
same completion. -/
def Obligations.CompletionIgnoresLiveRegisters : Prop :=
  ∀ (s : State) (i : Instr) (p : Pending) (o : Operands) (l : Byte), s.Holds i p →
    ∃ t, exec i s = .next t ∧ exec i ((s.setOps o).setLen l) = .next ((t.setOps o).setLen l)

/-! ### ROMRD, TWID, MUL, BFLY -/

/-- 40_twiddle.md R101: ROMRD puts SINE_TABLE[OPA[5:0]] in RES0 and changes nothing else but PENDING, BUSY and DONE. -/
def Obligations.RomrdReadsTheTableEntry : Prop :=
  AcceptedAs .romrd 0x04#8 ∧
  ∀ (s : State) (p : Pending), s.Holds .romrd p →
    ∃ t, exec .romrd s = .next t ∧
      (∀ i : Fin 64, i.val = p.args.a.toNat % 64 → t.res.r0.toNat = (s.rom.table[i]).toNat) ∧
      t.res.r1 = s.res.r1 ∧ t.res.r2 = s.res.r2 ∧ t.res.r3 = s.res.r3 ∧
      t.buf = s.buf ∧ t.im = s.im ∧ Completes s t false false

/-- 40_twiddle.md R102, R103: TWID puts the twiddle pair of OPA[6:0] in RES0 and RES1 as two's complement and changes
nothing else but PENDING, BUSY and DONE. -/
def Obligations.TwidYieldsTheTwiddlePair : Prop :=
  AcceptedAs .twid 0x05#8 ∧
  ∀ (s : State) (p : Pending) (ph : Nat), s.Holds .twid p → ph = p.args.a.toNat % 128 →
    ∃ t, exec .twid s = .next t ∧
      int8 t.res.r0 = (if ph < 64 then romAt s.rom (64 - ph) else - romAt s.rom (ph - 64)) ∧
      int8 t.res.r1 = (if ph < 64 then - romAt s.rom ph else - romAt s.rom (128 - ph)) ∧
      t.res.r2 = s.res.r2 ∧ t.res.r3 = s.res.r3 ∧
      t.buf = s.buf ∧ t.im = s.im ∧ Completes s t false false

/-- 41_multiply.md R120, R122: MUL puts floor((a·b + 64)/128) in RES0, wrapped, sets OVF exactly for a = b = −128, and
changes nothing else but PENDING, BUSY and DONE. -/
def Obligations.MulRoundsToNearest : Prop :=
  AcceptedAs .mul 0x03#8 ∧
  ∀ (s : State) (p : Pending) (a b : Int), s.Holds .mul p → a = p.args.a.toInt → b = p.args.b.toInt →
    ∃ t, exec .mul s = .next t ∧
      t.res.r0 = BitVec.ofInt 8 ((a * b + 64) / 128) ∧
      t.res.r1 = s.res.r1 ∧ t.res.r2 = s.res.r2 ∧ t.res.r3 = s.res.r3 ∧
      t.buf = s.buf ∧ t.im = s.im ∧ Completes s t false (decide (a = -128 ∧ b = -128))

/-- 43_butterfly.md R160-R164: BFLY's four results, wrapped, from four separately rounded products and the floor-halved
top value; OVF exactly when one of them is outside [−128, 127]; nothing else changes but PENDING, BUSY and DONE. -/
def Obligations.BflyCombinesTopAndBottom : Prop :=
  AcceptedAs .bfly 0x06#8 ∧
  ∀ (s : State) (p : Pending) (ar ai br bi wr wi tr ti : Int), s.Holds .bfly p →
    ar = p.args.a.toInt → ai = p.args.b.toInt → br = p.args.c.toInt → bi = p.args.d.toInt →
    (wr, wi) = twiddle s.rom (p.args.e.toNat % 128) →
    tr = (wr * br + 64) / 128 - (wi * bi + 64) / 128 →
    ti = (wr * bi + 64) / 128 + (wi * br + 64) / 128 →
    ∃ t, exec .bfly s = .next t ∧
      t.res.r0 = BitVec.ofInt 8 (ar / 2 + tr) ∧ t.res.r1 = BitVec.ofInt 8 (ai / 2 + ti) ∧
      t.res.r2 = BitVec.ofInt 8 (ar / 2 - tr) ∧ t.res.r3 = BitVec.ofInt 8 (ai / 2 - ti) ∧
      t.buf = s.buf ∧ t.im = s.im ∧
      Completes s t false ([ar / 2 + tr, ai / 2 + ti, ar / 2 - tr, ai / 2 - ti].any fun x =>
        decide (x < -128 ∨ 127 < x))

/-! ### BITREV and FFT -/

/-- 42_bitrev.md R140, R141, R143: BITREV with M in 1..8 moves byte q of BUF[0..2^M − 1] to its M-bit reversal and no
other byte; with another M it moves nothing and sets SIZE_ERR. -/
def Obligations.BitrevPermutesOrGuards : Prop :=
  AcceptedAs .bitrev 0x02#8 ∧
  ∀ (s : State) (p : Pending) (M : Nat), s.Holds .bitrev p → M = p.m.toNat →
    ∃ t, exec .bitrev s = .next t ∧ t.res = s.res ∧ t.im = s.im ∧
      (1 ≤ M → M ≤ 8 →
        (∀ q < 2 ^ M, t.bufByte (revBits M q) = s.bufByte q) ∧
        (∀ a, 2 ^ M ≤ a → t.bufByte a = s.bufByte a) ∧ Completes s t false false) ∧
      (M = 0 ∨ 9 ≤ M → t.buf = s.buf ∧ Completes s t true false)

/-- 44_transform.md R181: FFT with M outside 1..8 changes no data and sets SIZE_ERR. -/
def Obligations.FftSizeGuardIsANoOp : Prop :=
  ∀ (s : State) (p : Pending), s.Holds .fft p → p.m.toNat = 0 ∨ 9 ≤ p.m.toNat →
    ∃ t, exec .fft s = .next t ∧ t.buf = s.buf ∧ t.im = s.im ∧ t.res = s.res ∧ Completes s t true false

/-- 44_transform.md R180-R188: FFT with M in 1..8 leaves the real parts of the stage loop's result in BUF[0..N/2 − 1]
and its imaginary parts in BUF[N/2..N − 1]; no byte of BUF or IM outside 0..N − 1 changes, and RES does not; OVF is set
when a butterfly's store was out of range. -/
def Obligations.FftPacksTheStagesResult : Prop :=
  AcceptedAs .fft 0x01#8 ∧
  ∀ (s : State) (p : Pending) (M N : Nat) (w : Work), s.Holds .fft p → M = p.m.toNat → 1 ≤ M → M ≤ 8 →
    N = 2 ^ M → w = stages s.rom M ⟨bitRev M s.buf, initImag N s.im, false⟩ →
    ∃ t, exec .fft s = .next t ∧
      (∀ i < N / 2, t.bufByte i = bufRead w.buf i ∧ t.bufByte (N / 2 + i) = imRead w.im i) ∧
      (∀ a, N ≤ a → t.bufByte a = s.bufByte a ∧ t.imAt a = s.imAt a) ∧
      t.res = s.res ∧ Completes s t false w.ovf

/-- FFT computes the recursive decimation-in-time transform of its input bytes, taken as real samples: bit reversal,
in-place passes and packing together are that recursion (00_scope.md R1, R17; 44_transform.md R182-R187). -/
def Obligations.FftRefinesRecursiveDit : Prop :=
  ∀ (s : State) (p : Pending) (M N : Nat), s.Holds .fft p → M = p.m.toNat → 1 ≤ M → M ≤ 8 → N = 2 ^ M →
    ∃ t, exec .fft s = .next t ∧
      ∀ i < N / 2,
        t.bufByte i = (ditRec s.rom M (fun j => (s.bufByte j, 0x00#8)) i).1 ∧
        t.bufByte (N / 2 + i) = (ditRec s.rom M (fun j => (s.bufByte j, 0x00#8)) i).2

/-- 95_test_vectors.md S3 for every M and every ROM: an all-zero input gives an all-zero output, and no overflow. -/
def Obligations.FftOfZeroIsZero : Prop :=
  ∀ (s : State) (p : Pending), s.Holds .fft p → 1 ≤ p.m.toNat → p.m.toNat ≤ 8 →
    (∀ i < 2 ^ p.m.toNat, s.bufByte i = 0x00#8) →
    ∃ t, exec .fft s = .next t ∧ (∀ i < 2 ^ p.m.toNat, t.bufByte i = 0x00#8) ∧ t.has .ovf = s.has .ovf

/-- 44_transform.md R189: the result of FFT and its overflow depend on M, BUF[0..N − 1] and the ROM alone. -/
def Obligations.FftDependsOnItsInputsAlone : Prop :=
  ∀ (s₁ s₂ : State) (p₁ p₂ : Pending), s₁.Holds .fft p₁ → s₂.Holds .fft p₂ → p₁.m = p₂.m → s₁.rom = s₂.rom →
    (∀ i < 2 ^ p₁.m.toNat, s₁.bufByte i = s₂.bufByte i) →
    ∃ t₁ t₂, exec .fft s₁ = .next t₁ ∧ exec .fft s₂ = .next t₂ ∧
      (∀ i < 2 ^ p₁.m.toNat, t₁.bufByte i = t₂.bufByte i) ∧
      (s₁.has .ovf = s₂.has .ovf → t₁.has .ovf = t₂.has .ovf)

/-! ### Parts of the transform -/

/-- 42_bitrev.md R142, R145: bit t of p becomes bit M−1−t, the result stays below 2^M, and reversing twice gives the
number back. -/
def Obligations.BitReversalIsAnInvolution : Prop :=
  ∀ M p : Nat, p < 2 ^ M →
    (∀ t < M, (revBits M p).testBit (M - 1 - t) = p.testBit t) ∧ revBits M p < 2 ^ M ∧
    revBits M (revBits M p) = p

/-- 42_bitrev.md R145: the permuter applied twice to any buffer gives back every byte, for every M. -/
def Obligations.BitRevTwiceRestores : Prop :=
  ∀ (M : Nat) (m : Memory) (a : Nat), bufRead (bitRev M (bitRev M m)) a = bufRead m a

/-- 42_bitrev.md R144: the index walk gives the permutation of R143 for every M in 1..8. -/
def Obligations.IndexWalkIsThePermuter : Prop :=
  ∀ (M : Nat) (m : Memory) (a : Nat), 1 ≤ M → M ≤ 8 → bufRead (walkBitRev M m) a = bufRead (bitRev M m) a

/-- 41_multiply.md R122-R125: the closed form, the bound 1/2 on the rounding error, the range with its one value 128,
commutativity, and that negating an operand negates the product except exactly at ties. -/
def Obligations.MultiplierRounding : Prop :=
  (∀ a b : Int, mulRound a b = (a * b + 64) / 128 ∧ mulRound a b = mulRound b a ∧
    -64 ≤ 128 * mulRound a b - a * b ∧ 128 * mulRound a b - a * b ≤ 64 ∧
    (mulRound (-a) b = - mulRound a b ↔ ¬ (a * b) % 128 = 64)) ∧
  (∀ a b : Int, -128 ≤ a → a ≤ 127 → -128 ≤ b → b ≤ 127 →
    -127 ≤ mulRound a b ∧ mulRound a b ≤ 128 ∧ (mulRound a b = 128 ↔ a = -128 ∧ b = -128))

/-- 40_twiddle.md R105, R106: the signs and ranges of the pair for every admissible ROM, and where index 64 is read. -/
def Obligations.TwiddleSignsAndRanges : Prop :=
  ∀ (r : SineRom) (ph : Nat),
  (ph < 64 → 0 ≤ (twiddle r ph).1 ∧ (twiddle r ph).1 ≤ 127 ∧ -63 ≤ (twiddle r ph).2 ∧ (twiddle r ph).2 ≤ 0) ∧
  (64 ≤ ph → ph < 128 →
    -63 ≤ (twiddle r ph).1 ∧ (twiddle r ph).1 ≤ 0 ∧ -127 ≤ (twiddle r ph).2 ∧ (twiddle r ph).2 ≤ 0) ∧
  (0 < ph → ph < 64 → (twiddle r ph).1 ≤ 63) ∧ (64 < ph → ph < 128 → -63 ≤ (twiddle r ph).2) ∧
  twiddle r 0 = ((r.at64.toNat : Int), -((r.table[0]).toNat : Int)) ∧
  twiddle r 64 = (-((r.table[0]).toNat : Int), -(r.at64.toNat : Int))

/-- 43_butterfly.md R165: for every ROM and every input, the four products fit int8, and the outputs are in [−254, 253];
with SINE_AT_64 ≤ 64, in [−191, 190]. -/
def Obligations.ButterflyRanges : Prop :=
  ∀ (r : SineRom) (ar ai br bi : Int) (ph : Nat), ph < 128 →
    (∀ x ∈ [ar, ai, br, bi], -128 ≤ x ∧ x ≤ 127) →
    (∀ x ∈ [br, bi], ∀ w ∈ [(twiddle r ph).1, (twiddle r ph).2], -127 ≤ mulRound w x ∧ mulRound w x ≤ 127) ∧
    (∀ o, o = butterfly r ar ai br bi ph →
      (∀ y ∈ [o.topRe, o.topIm, o.botRe, o.botIm], -254 ≤ y ∧ y ≤ 253) ∧
      (r.at64.toNat ≤ 64 → ∀ y ∈ [o.topRe, o.topIm, o.botRe, o.botIm], -191 ≤ y ∧ y ≤ 190))

/-- 43_butterfly.md R169: the pairs (p, p + l) of a pass touch each index 0..N−1 exactly once. -/
def Obligations.PassPairsPartitionTheIndices : Prop :=
  ∀ M s : Nat, s < M →
    ((passPairs (2 ^ M) (2 ^ s)).flatMap fun bp => [bp.2, bp.2 + 2 ^ s]).Perm (List.range (2 ^ M))

/-- 43_butterfly.md R169: the result of a pass, and whether it sets OVF, does not depend on the order of its
butterflies. -/
def Obligations.PassOrderDoesNotMatter : Prop :=
  ∀ (r : SineRom) (M s : Nat) (pairs : List (Nat × Nat)) (w : Work), s < M → M ≤ 8 →
    pairs.Perm (passPairs (2 ^ M) (2 ^ s)) →
    (∀ a, bufRead (runPairs r (2 ^ s) (7 - s) pairs w).buf a = bufRead (runPass r (2 ^ M) (2 ^ s) (7 - s) w).buf a ∧
      imRead (runPairs r (2 ^ s) (7 - s) pairs w).im a = imRead (runPass r (2 ^ M) (2 ^ s) (7 - s) w).im a) ∧
    (runPairs r (2 ^ s) (7 - s) pairs w).ovf = (runPass r (2 ^ M) (2 ^ s) (7 - s) w).ovf

/-- 43_butterfly.md R167, R168: in the pass with l = 2^s the phase of block b is b·2^(7−s), below 128, so the mod 128
never changes it. -/
def Obligations.PhaseStaysInTheHalfPeriod : Prop :=
  ∀ s b : Nat, s ≤ 7 → b < 2 ^ s → blockPhase (7 - s) b = b * 2 ^ (7 - s) ∧ b * 2 ^ (7 - s) < 128

/-- 00_scope.md R13: wrap8 and byte, and that storing a value in range and reading it back gives it. -/
def Obligations.WrapAndStoreByte : Prop :=
  ∀ x : Int, -128 ≤ wrap8 x ∧ wrap8 x ≤ 127 ∧ (256 : Int) ∣ wrap8 x - x ∧
    storedByte x = BitVec.ofInt 8 x ∧ int8 (storedByte x) = wrap8 x ∧ (-128 ≤ x → x ≤ 127 → wrap8 x = x)

/-- Two stores in canonical form that hold the same values are the same data. -/
def Obligations.CanonicalMemoriesAreEqualData : Prop :=
  ∀ m₁ m₂ : Memory, m₁.wf → m₂.wf → (∀ a, m₁.lookup a = m₂.lookup a) → m₁ = m₂

/-! ### Reset -/

/-- 10_state.md R36: after reset every register reads 0x00 on the bus, PENDING is empty, the engine is idle and no byte
of BUF or IM holds a value. -/
def Obligations.ResetStateReadsZero : Prop :=
  (∀ a : HostAddr, 0x100 ≤ a.toNat → memRead a State.reset = (0x00#8, State.reset)) ∧
  State.reset.pending = none ∧ State.reset.busy = false ∧
  (∀ a, State.reset.buf.lookup a = none ∧ State.reset.im.lookup a = none)

/-- 70_reset_and_hazards.md R230-R233: what a reset sets, and which BUF bytes it leaves: all of them, unless it abandons
an FFT or BITREV with M in 1..8; then BUF[2^M..255] stays and each byte below is unspecified. The ROM stays.
The model's choices, not the spec's: an unspecified byte is a free value of its own draw (log entry 3), IM lists no byte
afterwards (log entry 6), the host and the turns stay (log entry 10), and a reset is a turn (log entry 1). -/
def Obligations.ResetEventEffect : Prop :=
  ∀ (s t : State), t = resetEngine s →
    (t.len = 0x00#8 ∧ t.status = 0x00#8 ∧ t.ops = ⟨0x00#8, 0x00#8, 0x00#8, 0x00#8, 0x00#8⟩ ∧
      t.res = ⟨0x00#8, 0x00#8, 0x00#8, 0x00#8⟩ ∧ t.pending = none ∧
      t.rom = s.rom ∧ t.host = s.host ∧ t.turns = s.turns ∧ ∀ a, t.im.lookup a = none) ∧
    (∀ p, s.pending = some p → p.op = .fft ∨ p.op = .bitrev → 1 ≤ p.m.toNat → p.m.toNat ≤ 8 →
      (∀ a, 2 ^ p.m.toNat ≤ a → t.bufByte a = s.bufByte a) ∧
      (∀ i < 2 ^ p.m.toNat, t.bufByte i = Config.lostByte (s.draws + i)) ∧ t.draws = s.draws + 2 ^ p.m.toNat) ∧
    ((∀ p, s.pending = some p → ¬ (p.op = .fft ∨ p.op = .bitrev) ∨ p.m.toNat = 0 ∨ 9 ≤ p.m.toNat) →
      t.buf = s.buf ∧ t.draws = s.draws) ∧
    (∀ ts : List Turn, step (s.setTurns (.reset :: ts)) = .next (t.setTurns ts))

/-! ### The whole machine -/

/-- The invariant holds at reset. -/
def Obligations.ResetMeetsTheInvariant : Prop := State.reset.Inv

/-- Every step keeps the invariant: the canonical form of BUF and IM, the reserved bits reading 0 (20_memory.md R58),
PENDING full exactly while BUSY and equal to the live registers (10_state.md R33), BUSY and DONE never both set, an
admissible ROM. -/
def Obligations.StepKeepsTheInvariant : Prop :=
  ∀ s t : State, s.Inv → step s = .next t → t.Inv

/-- 60_exceptions.md R200: "The engine has no trap mechanism": from every state that meets the invariant a step answers
a next state, whatever the host does and whoever moves. -/
def Obligations.NoStepStops : Prop :=
  ∀ s : State, s.Inv → s.SafeStep

/-- An accepted command completes unless a reset intervenes, as 70_reset_and_hazards.md R247 wants: within the turns laid
down and one more step there is a first state with BUSY = 0, and DONE is 1 in it unless one of the turns taken up to it
was a reset. That the engine moves once the turns are used up is the model's form of R247's weak fairness (DESIGN
CHOICE, log entry 1). -/
def Obligations.AcceptedCommandCompletes : Prop :=
  ∀ (s : State) (p : Pending), s.busy = true → s.pending = some p →
    ∃ (k : Nat) (t : State), k ≤ s.turns.length + 1 ∧ Sys2Proof.core.run k s = .next t ∧ t.busy = false ∧
      (∀ j < k, ∃ u : State, Sys2Proof.core.run j s = .next u ∧ u.busy = true) ∧
      (t.has .done = true ∨ Turn.reset ∈ s.turns.take k)

/-- 60_exceptions.md R209: no step clears SIZE_ERR, OVF, CMD_ERR or ACC_ERR except a reset and a host write of 1 to the
flag's bit of STATUS. -/
def Obligations.ErrorFlagsAreSticky : Prop :=
  ∀ (s t : State) (f : Flag), f.isError = true → step s = .next t → s.has f = true → t.has f = false →
    s.turns.head? = some .reset ∨ ∃ v : Byte, s.HostWrites statusAddr v ∧ v.getLsbD f.bit = true

/-- 10_state.md R25: BUSY rises only by the acceptance of a legal CMD byte, and falls only by a completion, which sets
DONE and empties PENDING, or by reset. -/
def Obligations.BusyRisesAndFalls : Prop :=
  ∀ s t : State, step s = .next t →
    (s.busy = false → t.busy = true →
      ∃ (v : Byte) (i : Instr), s.HostWrites cmdAddr v ∧ decodeByte v = .ok i ∧
        t.pending = some ⟨i, s.len.extractLsb' 0 4, s.ops⟩ ∧ t.has .done = false) ∧
    (s.busy = true → t.busy = false →
      s.turns.head? = some .reset ∨
        (t.has .done = true ∧ t.pending = none ∧ ∃ p, s.pending = some p ∧ s.turns.head? ≠ some .host))

/-- 10_state.md R30: a BUF byte changes only by a host write to it while idle, by the completion of FFT or BITREV with M
in 1..8 for a byte below 2^M, or by a reset that abandons one. -/
def Obligations.BufferChangesOnlyByItsWriters : Prop :=
  ∀ (s t : State) (a : Nat), step s = .next t → t.bufByte a ≠ s.bufByte a →
    (s.busy = false ∧ a < 256 ∧ s.HostWrites (bufAddr a) (t.bufByte a)) ∨
    (∃ p, s.pending = some p ∧ (p.op = .fft ∨ p.op = .bitrev) ∧ 1 ≤ p.m.toNat ∧ p.m.toNat ≤ 8 ∧
      a < 2 ^ p.m.toNat ∧ (s.busy = true ∨ s.turns.head? = some .reset))

/-- 10_state.md R28: RES0..RES3 change only by the completion of MUL, ROMRD, TWID or BFLY, or by reset. -/
def Obligations.ResultsChangeOnlyAtCompletion : Prop :=
  ∀ s t : State, step s = .next t → t.res ≠ s.res →
    s.turns.head? = some .reset ∨
      (s.busy = true ∧ ∃ p, s.pending = some p ∧
        (p.op = .mul ∨ p.op = .romrd ∨ p.op = .twid ∨ p.op = .bfly) ∧ t.pending = none)

/-- 10_state.md R31: the sine ROM is never written. -/
def Obligations.RomIsNeverWritten : Prop :=
  ∀ s t : State, step s = .next t → t.rom = s.rom

/-- 10_state.md R32: what IM holds between commands is never observed: two states that differ in IM alone step alike,
and the states after differ in IM alone. -/
def Obligations.ImIsNeverObserved : Prop :=
  ∀ s₁ s₂ t₁ : State, s₁.setIm [] = s₂.setIm [] → step s₁ = .next t₁ →
    ∃ t₂, step s₂ = .next t₂ ∧ t₁.setIm [] = t₂.setIm [] ∧ t₁.observe = t₂.observe

/-- 70_reset_and_hazards.md R246 and 95_test_vectors.md P4: an operand write that races with a completion: before it, it
is dropped with ACC_ERR; after it, it lands; the results are the same in both. -/
def Obligations.RacingOperandWrite : Prop :=
  ∀ (s : State) (i : Instr) (p : Pending) (k : Nat) (v : Byte), s.Holds i p → k < 5 → s.HostWrites (opAddr k) v →
    ∃ t₁ t₂ : State,
      Sys2Proof.core.run 2 (s.setTurns [.host, .engine]) = .next t₁ ∧
      Sys2Proof.core.run 2 (s.setTurns [.engine, .host]) = .next t₂ ∧
      t₁.ops = s.ops ∧ t₁.has .accErr = true ∧ t₂.ops = s.ops.put v k ∧ t₂.has .accErr = s.has .accErr ∧
      t₁.res = t₂.res ∧ t₁.buf = t₂.buf ∧ (∀ f : Flag, f ≠ .accErr → t₁.has f = t₂.has f) ∧
      t₁.busy = false ∧ t₂.busy = false

/-- 70_reset_and_hazards.md R248, 60_exceptions.md R217: a run that has ended stays as it is until a reset. -/
def Obligations.EndedRunStaysEnded : Prop :=
  ∀ s : State, s.RunEnded → s.turns = [] → step s = .next s
end

