-- ==== Sys2Proof/Laws/Bus.lean ====
section
/-! SUPPORT. Laws/Bus.lean: which addresses fall in which class of the address map (20_memory.md R51). -/

namespace Sys2Proof.Machine

theorem bufAddr_toNat {i : Nat} (h : i < 256) : (bufAddr i).toNat = i := by
  rw [bufAddr, BitVec.toNat_ofNat]
  omega

theorem placeOf_buf_iff {a : HostAddr} {i : Nat} : placeOf a = .buf i ↔ a.toNat = i ∧ i ≤ 0xFF := by
  unfold placeOf
  simp only
  repeat' split
  all_goals simp only [Place.buf.injEq, reduceCtorEq, false_iff, not_and]
  all_goals omega

theorem placeOf_cmd_iff {a : HostAddr} : placeOf a = .cmd ↔ a.toNat = 0x200 := by
  unfold placeOf
  simp only
  repeat' split
  all_goals simp only [reduceCtorEq, false_iff, true_iff]
  all_goals omega

theorem placeOf_len_iff {a : HostAddr} : placeOf a = .len ↔ a.toNat = 0x201 := by
  unfold placeOf
  simp only
  repeat' split
  all_goals simp only [reduceCtorEq, false_iff, true_iff]
  all_goals omega

theorem placeOf_status_iff {a : HostAddr} : placeOf a = .status ↔ a.toNat = 0x202 := by
  unfold placeOf
  simp only
  repeat' split
  all_goals simp only [reduceCtorEq, false_iff, true_iff]
  all_goals omega

theorem placeOf_op_iff {a : HostAddr} {k : Nat} :
    placeOf a = .op k ↔ a.toNat = 0x204 + k ∧ k ≤ 4 := by
  unfold placeOf
  simp only
  repeat' split
  all_goals simp only [Place.op.injEq, reduceCtorEq, false_iff, not_and]
  all_goals omega

theorem placeOf_res_iff {a : HostAddr} {k : Nat} :
    placeOf a = .res k ↔ a.toNat = 0x20C + k ∧ k ≤ 3 := by
  unfold placeOf
  simp only
  repeat' split
  all_goals simp only [Place.res.injEq, reduceCtorEq, false_iff, not_and]
  all_goals omega

end Sys2Proof.Machine
end

