-- ==== Sys2Proof/Laws/Memory.lean ====
section
/-! SUPPORT. Laws/Memory.lean: read after write, and that every memory operation keeps the canonical form. -/

namespace Sys2Proof.Machine

theorem Memory.lookup_write (m : Memory) (a b : Nat) (v : Byte) :
    (Memory.write m a v).lookup b = if a = b then some v else m.lookup b := by
  induction m with
  | nil => simp [Memory.write, Memory.lookup]
  | cons c m ih =>
    obtain ⟨k, w⟩ := c
    simp only [Memory.write]
    split
    · simp [Memory.lookup]
    · split
      · subst_vars
        by_cases h : k = b <;> simp [Memory.lookup, h]
      · by_cases h : k = b
        · subst h
          simp [Memory.lookup, *]
        · simp [Memory.lookup, h, ih]

/-- Read after write of BUF: the byte written, and every other byte as before. -/
theorem bufRead_write (m : Memory) (a b : Nat) (v : Byte) :
    bufRead (Memory.write m a v) b = if a = b then v else bufRead m b := by
  by_cases h : a = b <;> simp [bufRead, Memory.lookup_write, h]

@[simp] theorem bufRead_write_self (m : Memory) (a : Nat) (v : Byte) :
    bufRead (Memory.write m a v) a = v := by simp [bufRead_write]

theorem bufRead_write_other {a b : Nat} (h : a ≠ b) (m : Memory) (v : Byte) :
    bufRead (Memory.write m a v) b = bufRead m b := by simp [bufRead_write, h]

/-- Read after write of IM. -/
theorem imRead_write (m : Memory) (a b : Nat) (v : Byte) :
    imRead (Memory.write m a v) b = if a = b then v else imRead m b := by
  by_cases h : a = b <;> simp [imRead, Memory.lookup_write, h]

@[simp] theorem imRead_write_self (m : Memory) (a : Nat) (v : Byte) :
    imRead (Memory.write m a v) a = v := by simp [imRead_write]

theorem imRead_write_other {a b : Nat} (h : a ≠ b) (m : Memory) (v : Byte) :
    imRead (Memory.write m a v) b = imRead m b := by simp [imRead_write, h]

/-- A cell of a written memory is the written one or an old one. -/
theorem Memory.mem_write {m : Memory} {a : Nat} {v : Byte} {c : Host.Cell}
    (h : c ∈ Memory.write m a v) : c = (a, v) ∨ c ∈ m := by
  induction m with
  | nil => simpa [Memory.write] using h
  | cons d m ih =>
    obtain ⟨k, w⟩ := d
    simp only [Memory.write] at h
    split at h
    · simpa using h
    · split at h
      · rcases List.mem_cons.1 h with h | h
        · exact .inl h
        · exact .inr (List.mem_cons_of_mem _ h)
      · rcases List.mem_cons.1 h with h | h
        · exact .inr (h ▸ List.mem_cons_self)
        · exact (ih h).imp id (List.mem_cons_of_mem _)

theorem Memory.pairwise_write {m : Memory} (h : m.Pairwise fun x y => x.1 < y.1) (a : Nat)
    (v : Byte) : (Memory.write m a v).Pairwise fun x y => x.1 < y.1 := by
  induction m with
  | nil => simp [Memory.write]
  | cons d m ih =>
    obtain ⟨k, w⟩ := d
    obtain ⟨hk, hm⟩ := List.pairwise_cons.1 h
    simp only [Memory.write]
    split
    · next hak =>
      refine List.pairwise_cons.2 ⟨fun c hc => ?_, h⟩
      rcases List.mem_cons.1 hc with rfl | hc
      · exact hak
      · exact hak.trans (hk c hc)
    · split
      · next hak => subst hak; exact List.pairwise_cons.2 ⟨hk, hm⟩
      · next h1 h2 =>
        refine List.pairwise_cons.2 ⟨fun c hc => ?_, ih hm⟩
        rcases Memory.mem_write hc with rfl | hc
        · simp only; omega
        · exact hk c hc

/-- A write below 256 keeps the canonical form. -/
theorem Memory.wf_write {m : Memory} (h : m.wf) {a : Nat} (ha : a < 256) (v : Byte) :
    (Memory.write m a v).wf :=
  ⟨Memory.pairwise_write h.1 a v, fun _ hc => (Memory.mem_write hc).elim (fun e => e ▸ ha) (h.2 _)⟩

/-- A fold of a memory operation that keeps the canonical form on the list's members keeps it. -/
theorem Memory.wf_foldl {α : Type} {f : Memory → α → Memory} {l : List α}
    (hf : ∀ m x, x ∈ l → m.wf → (f m x).wf) {m : Memory} (h : m.wf) : (l.foldl f m).wf := by
  induction l generalizing m with
  | nil => exact h
  | cons x l ih =>
    exact ih (fun m y hy => hf m y (List.mem_cons_of_mem _ hy)) (hf m x List.mem_cons_self h)

theorem loseBytes_wf {m : Memory} (h : m.wf) {n : Nat} (hn : n ≤ 256) (draws : Nat) :
    (loseBytes n draws m).wf :=
  Memory.wf_foldl (fun _ _ hi hm => Memory.wf_write hm (by have := List.mem_range.1 hi; omega) _) h

theorem initImag_wf {m : Memory} (h : m.wf) {N : Nat} (hN : N ≤ 256) : (initImag N m).wf :=
  Memory.wf_foldl (fun _ _ hi hm => Memory.wf_write hm (by have := List.mem_range.1 hi; omega) _) h

theorem pack_buf_wf {w : Work} (h : w.buf.wf) {N : Nat} (hN : N ≤ 256) : (pack N w).buf.wf :=
  Memory.wf_foldl (fun _ _ hi hm => Memory.wf_write hm (by have := List.mem_range.1 hi; omega) _) h

@[simp] theorem pack_im (N : Nat) (w : Work) : (pack N w).im = w.im := rfl

@[simp] theorem pack_ovf (N : Nat) (w : Work) : (pack N w).ovf = w.ovf := rfl

/-- The M-bit reversal of any number is below 2^M. -/
theorem revBits_lt (M p : Nat) : revBits M p < 2 ^ M := by
  have key : ∀ n ≤ M, ((List.range n).map fun t => ((p >>> t) % 2) <<< (M - 1 - t)).sum + 2 ^ (M - n)
      ≤ 2 ^ M := by
    intro n
    induction n with
    | zero => simp
    | succ n ih =>
      intro hn
      have h1 := ih (by omega)
      have h2 : ((p >>> n) % 2) <<< (M - 1 - n) ≤ 2 ^ (M - (n + 1)) := by
        rw [Nat.shiftLeft_eq, show M - 1 - n = M - (n + 1) by omega]
        have : (p >>> n) % 2 ≤ 1 := by omega
        calc _ ≤ 1 * 2 ^ (M - (n + 1)) := Nat.mul_le_mul_right _ this
          _ = _ := Nat.one_mul _
      have h3 : 2 ^ (M - n) = 2 ^ (M - (n + 1)) + 2 ^ (M - (n + 1)) := by
        rw [show M - n = M - (n + 1) + 1 by omega, Nat.pow_succ]; omega
      rw [List.range_succ, List.map_append, List.sum_append]
      simp only [List.map_cons, List.map_nil, List.sum_cons, List.sum_nil]
      omega
  have := key M (le_refl M)
  simp only [Nat.sub_self, Nat.pow_zero] at this
  unfold revBits
  omega

theorem bitRev_wf {m : Memory} (h : m.wf) {M : Nat} (hM : M ≤ 8) : (bitRev M m).wf := by
  have hN : 2 ^ M ≤ 256 := Nat.pow_le_pow_right (by decide) hM
  refine Memory.wf_foldl (fun m p hp hm => ?_) h
  unfold revSwap swapBytes
  have h1 := revBits_lt M p
  have h2 := List.mem_range.1 hp
  split
  · exact Memory.wf_write (Memory.wf_write hm (by omega) _) (by omega) _
  · exact hm

/-- Both stores of the stage loop are in canonical form. -/
def Work.wf (w : Work) : Prop := w.buf.wf ∧ w.im.wf

theorem butterflyAt_wf {w : Work} (h : w.wf) (r : SineRom) (ph : Nat) {l p : Nat} (hq : p + l < 256) :
    (butterflyAt r l ph p w).wf :=
  ⟨Memory.wf_write (Memory.wf_write h.1 (by omega) _) hq _,
    Memory.wf_write (Memory.wf_write h.2 (by omega) _) hq _⟩

/-- A pair (b, p) of a pass: b is below l, and p and its partner p + l are below N. -/
theorem mem_passPairs {N l b p : Nat} (h : (b, p) ∈ passPairs N l) : b < l ∧ p + l < N := by
  simp only [passPairs, List.mem_flatMap, List.mem_range, List.mem_map, Prod.mk.injEq] at h
  obtain ⟨b', hb, t, ht, rfl, rfl⟩ := h
  refine ⟨hb, ?_⟩
  have h1 : (t + 1) * (2 * l) ≤ N :=
    (Nat.mul_le_mul_right _ ht).trans (Nat.div_mul_le_self N (2 * l))
  rw [Nat.succ_mul] at h1
  omega

theorem runPairs_wf (r : SineRom) {l : Nat} (k : Nat) {pairs : List (Nat × Nat)}
    (hp : ∀ bp ∈ pairs, bp.2 + l < 256) {w : Work} (h : w.wf) : (runPairs r l k pairs w).wf := by
  induction pairs generalizing w with
  | nil => exact h
  | cons x ps ih =>
    exact ih (fun y hy => hp y (List.mem_cons_of_mem _ hy))
      (butterflyAt_wf h r _ (hp x List.mem_cons_self))

theorem runPass_wf (r : SineRom) {N : Nat} (hN : N ≤ 256) (l k : Nat) {w : Work} (h : w.wf) :
    (runPass r N l k w).wf :=
  runPairs_wf r k (fun _ hb => by have := (mem_passPairs hb).2; omega) h

theorem stages_wf (r : SineRom) {M : Nat} (hM : M ≤ 8) {w : Work} (h : w.wf) : (stages r M w).wf := by
  have hN : 2 ^ M ≤ 256 := Nat.pow_le_pow_right (by decide) hM
  have key : ∀ ss : List Nat, ∀ w : Work, w.wf →
      (ss.foldl (fun w s => runPass r (2 ^ M) (2 ^ s) (7 - s) w) w).wf := by
    intro ss
    induction ss with
    | nil => exact fun _ h => h
    | cons s ss ih => exact fun w hw => ih _ (runPass_wf r hN _ _ hw)
  exact key _ w h

theorem transform_wf (r : SineRom) {M : Nat} (hM : M ≤ 8) {buf im : Memory} (hb : buf.wf)
    (hi : im.wf) : (transform r M buf im).wf := by
  have hN : 2 ^ M ≤ 256 := Nat.pow_le_pow_right (by decide) hM
  have h := stages_wf r hM (w := stageInput M buf im) ⟨bitRev_wf hb hM, initImag_wf hi hN⟩
  exact ⟨pack_buf_wf h.1 hN, h.2⟩

/-- Reset's memory is in canonical form. -/
theorem reset_memory_wf : State.reset.buf.wf ∧ State.reset.im.wf := by
  constructor <;> exact ⟨List.Pairwise.nil, by simp [State.reset]⟩

end Sys2Proof.Machine
end

