-- ==== Sys2Proof/Laws/PerInstr.lean ====
section
/-! SUPPORT. Laws/PerInstr.lean: statements made per instruction. -/

namespace Sys2Proof.Laws.CommandByte

/-- A command is one well-formed byte with Z = 0b0000 and OP in 1..6 (30_encoding.md R80, R83, R87). -/
def Statement (i : Instr) : Prop :=
  i.wellFormed = true ∧ encode i = [encodeByte i] ∧ cmdZ (encodeByte i) = 0#4 ∧
    1 ≤ (cmdOp (encodeByte i)).toNat ∧ (cmdOp (encodeByte i)).toNat ≤ 6

theorem fft : Statement .fft := by refine ⟨rfl, rfl, ?_⟩; decide
theorem bitrev : Statement .bitrev := by refine ⟨rfl, rfl, ?_⟩; decide
theorem mul : Statement .mul := by refine ⟨rfl, rfl, ?_⟩; decide
theorem romrd : Statement .romrd := by refine ⟨rfl, rfl, ?_⟩; decide
theorem twid : Statement .twid := by refine ⟨rfl, rfl, ?_⟩; decide
theorem bfly : Statement .bfly := by refine ⟨rfl, rfl, ?_⟩; decide

end Sys2Proof.Laws.CommandByte
end

