-- ==== Sys2Proof/Laws/Rom.lean ====
section
/-! SUPPORT. Laws/Rom.lean: the bounds of 00_scope.md R9 and R10 on the ROM accessor, and that the engine's table,
made from free draws, meets R9. -/

namespace Sys2Proof.Machine

theorem romAt_nonneg (r : SineRom) (i : Nat) : 0 ≤ romAt r i := by
  unfold romAt
  split <;> exact Int.natCast_nonneg _

theorem romAt_le_63 (r : SineRom) {i : Nat} (h : i < 64) : romAt r i ≤ 63 := by
  simp only [romAt, h, dif_pos]
  have := (r.table[i]).isLt
  omega

theorem romAt_le_127 (r : SineRom) (i : Nat) : romAt r i ≤ 127 := by
  unfold romAt
  split
  · next h => have := (r.table[i]).isLt; omega
  · have := r.at64.isLt; omega

theorem sineRise_lt (i : Nat) : Config.sineRise i < 64 := by
  induction i with
  | zero => exact (Config.sineDraw 0).isLt
  | succ i ih => exact Nat.max_lt.2 ⟨ih, (Config.sineDraw (i + 1)).isLt⟩

theorem sineRise_mono {i j : Nat} (h : i ≤ j) : Config.sineRise i ≤ Config.sineRise j := by
  induction h with
  | refl => exact Nat.le_refl _
  | step _ ih => exact ih.trans (Nat.le_max_left _ _)

theorem sineRom_table (i : Fin 64) : (Config.sineRom.table[i]).toNat = Config.sineRise i := by
  have := sineRise_lt i
  simp only [Config.sineRom, Fin.getElem_fin, Vector.getElem_ofFn, BitVec.toNat_ofNat]
  omega

end Sys2Proof.Machine
end

