-- ==== Sys2Proof/Laws/Status.lean ====
section
/-! SUPPORT. Laws/Status.lean: what each STATUS computation does to each flag and to the reserved bits. -/

namespace Sys2Proof.Machine

theorem Flag.bit_injective {f g : Flag} (h : f.bit = g.bit) : f = g := by
  cases f <;> cases g <;> first | rfl | simp [Flag.bit] at h

theorem Flag.bit_lt (f : Flag) : f.bit < 8 := by cases f <;> decide

theorem Flag.mask_getLsbD (f g : Flag) : f.mask.getLsbD g.bit = decide (g = f) := by
  cases f <;> cases g <;> decide

@[simp] theorem hasFlag_setFlag (f g : Flag) (st : Byte) :
    hasFlag g (setFlag f st) = (decide (g = f) || hasFlag g st) := by
  simp [hasFlag, setFlag, Flag.mask_getLsbD, Bool.or_comm]

@[simp] theorem hasFlag_clearFlag (f g : Flag) (st : Byte) :
    hasFlag g (clearFlag f st) = (!decide (g = f) && hasFlag g st) := by
  simp only [hasFlag, clearFlag, BitVec.getLsbD_and, BitVec.getLsbD_not, Flag.mask_getLsbD, Flag.bit_lt,
    decide_true, Bool.true_and]
  exact Bool.and_comm _ _

@[simp] theorem hasFlag_setFlagIf (c : Bool) (f g : Flag) (st : Byte) :
    hasFlag g (setFlagIf c f st) = (c && decide (g = f) || hasFlag g st) := by
  cases c <;> simp [setFlagIf]

@[simp] theorem hasFlag_statusAfterAccept (g : Flag) (st : Byte) :
    hasFlag g (statusAfterAccept st) = (decide (g = .busy) || !decide (g = .done) && hasFlag g st) := by
  simp [statusAfterAccept]

@[simp] theorem hasFlag_statusAfterComplete (g : Flag) (st : Byte) :
    hasFlag g (statusAfterComplete st) = (decide (g = .done) || !decide (g = .busy) && hasFlag g st) := by
  simp [statusAfterComplete]

/-- A STATUS write clears flag `g` where the written byte has its bit, BUSY excepted. -/
theorem hasFlag_statusAfterWrite (g : Flag) (v st : Byte) :
    hasFlag g (statusAfterWrite v st) =
      (hasFlag g st && (decide (g = .busy) || !v.getLsbD g.bit)) := by
  cases g <;> simp [hasFlag, statusAfterWrite, Flag.bit]

/-- STATUS[7:6]. -/
def statusTop (st : Byte) : BitVec 2 := st.extractLsb' 6 2

theorem statusTop_setFlag (f : Flag) (st : Byte) : statusTop (setFlag f st) = statusTop st := by
  cases f <;> revert st <;> decide

theorem statusTop_setFlagIf (c : Bool) (f : Flag) (st : Byte) :
    statusTop (setFlagIf c f st) = statusTop st := by
  cases c <;> simp [setFlagIf, statusTop_setFlag]

theorem statusTop_clearFlag (f : Flag) (st : Byte) : statusTop (clearFlag f st) = statusTop st := by
  cases f <;> revert st <;> decide

theorem statusTop_statusAfterAccept (st : Byte) : statusTop (statusAfterAccept st) = statusTop st := by
  simp [statusAfterAccept, statusTop_setFlag, statusTop_clearFlag]

theorem statusTop_statusAfterComplete (st : Byte) :
    statusTop (statusAfterComplete st) = statusTop st := by
  simp [statusAfterComplete, statusTop_setFlag, statusTop_clearFlag]

theorem statusTop_statusAfterWrite (v st : Byte) : statusTop (statusAfterWrite v st) = statusTop st := by
  have h : ∀ v : Byte, statusTop (~~~(v &&& 0x3E#8)) = 3#2 := by decide
  have e : statusTop (statusAfterWrite v st) = statusTop st &&& statusTop (~~~(v &&& 0x3E#8)) := by
    simp only [statusTop, statusAfterWrite, BitVec.extractLsb'_and]
  rw [e, h]
  exact BitVec.and_allOnes (x := statusTop st)

end Sys2Proof.Machine
end

