-- ==== Sys2Proof/Laws/Steps.lean ====
section
/-! SUPPORT. Laws/Steps.lean: one lemma per shared operation that says once everything it can do; proofs cite these
and do not unfold the operations. -/

namespace Sys2Proof.Machine

/-- Putting back the turns a state has changes nothing. -/
theorem State.setTurns_turns_self (s : State) : s.setTurns s.turns = s := rfl

/-- A read changes nothing but, refused, ACC_ERR. -/
theorem memRead_state (a : HostAddr) (s : State) :
    (memRead a s).2 = s ∨
      (s.busy = true ∧ (∃ i, placeOf a = .buf i) ∧ (memRead a s).2 = s.raise .accErr) := by
  unfold memRead
  cases h : placeOf a <;> simp
  cases s.busy <;> simp

/-- Everything a write can do. -/
theorem memWrite_cases (a : HostAddr) (v : Byte) (s : State) :
    memWrite a v s = s ∨ memWrite a v s = s.setStatus (statusAfterWrite v s.status) ∨
    (s.busy = true ∧ memWrite a v s = s.raise .accErr) ∨
    (s.busy = false ∧
      ((∃ i, placeOf a = .buf i ∧ memWrite a v s = s.setBuf (Memory.write s.buf i v)) ∨
       (∃ i, decodeByte v = .ok i ∧ memWrite a v s = accept i s) ∨
       memWrite a v s = s.raise .cmdErr ∨ memWrite a v s = s.setLen (lenAfterWrite v) ∨
       ∃ k, memWrite a v s = s.setOps (s.ops.put v k))) := by
  unfold memWrite decodeCommand
  cases h : placeOf a with
  | buf i => cases hb : s.busy <;> simp
  | cmd =>
    cases hb : s.busy
    · cases hd : decodeByte v <;> simp
    · simp
  | len => cases hb : s.busy <;> simp
  | status => simp
  | op k =>
    cases hb : s.busy
    · simp only [Bool.false_eq_true, if_false, false_and, true_and, false_or]
      exact .inr (.inr (.inr (.inr (.inr (.inr ⟨k, rfl⟩)))))
    · simp
  | res k => simp
  | reserved => simp

/-- A BUF place is one of the 256 bytes. -/
theorem placeOf_buf_lt {a : HostAddr} {i : Nat} (h : placeOf a = .buf i) : i < 256 := by
  unfold placeOf at h
  simp only at h
  repeat' split at h
  all_goals simp at h
  omega

/-- The host's move is one transaction at most, and a change of the host alone. -/
theorem hostMove_cases (s : State) :
    hostMove s = s ∨ ∃ h, (∃ a, hostMove s = ((memRead a s).2).setHost h) ∨
      ∃ a v, hostMove s = (memWrite a v s).setHost h := by
  unfold hostMove
  split
  · exact .inl rfl
  · next t _ =>
    refine .inr ?_
    unfold transact
    split
    · exact ⟨_, .inr ⟨t.addr, t.data, rfl⟩⟩
    · exact ⟨_, .inl ⟨t.addr, rfl⟩⟩
  · next addr _ _ _ => exact .inr ⟨_, .inl ⟨addr, rfl⟩⟩

/-- Every meaning completes, and what it may change: BUF, IM, RES and STATUS; PENDING it empties. -/
theorem exec_shape (i : Instr) (s : State) : ∃ buf im res st,
    exec i s = .next ((((s.setBuf buf).setIm im).setRes res).setStatus st).finish := by
  cases i with
  | fft =>
    simp only [exec, execFft]
    split
    · exact ⟨s.buf, s.im, s.res, _, rfl⟩
    · let w := transform s.rom (s.command .fft).exponent s.buf s.im
      exact ⟨w.buf, w.im, s.res, setFlagIf w.ovf .ovf s.status, rfl⟩
  | bitrev =>
    simp only [exec, execBitrev]
    split
    · exact ⟨s.buf, s.im, s.res, _, rfl⟩
    · exact ⟨_, s.im, s.res, s.status, rfl⟩
  | mul => exact ⟨s.buf, s.im, _, setFlagIf _ .ovf s.status, rfl⟩
  | romrd =>
    exact ⟨s.buf, s.im, { s.res with r0 := byteOf (romAt s.rom (romIndex (s.command .romrd).args.a)) },
      s.status, rfl⟩
  | twid =>
    let w := twiddle s.rom (phaseIndex (s.command .twid).args.a)
    exact ⟨s.buf, s.im, { s.res with r0 := byteOf w.1, r1 := byteOf w.2 }, s.status, rfl⟩
  | bfly => exact ⟨s.buf, s.im, _, setFlagIf _ .ovf s.status, rfl⟩

/-- What an engine turn can do. -/
theorem engineTurn_cases {s t : State} (h : engineTurn s = .next t) :
    (s.busy = false ∧ t = s) ∨ ∃ p, s.busy = true ∧ s.pending = some p ∧ exec p.op s = .next t := by
  unfold engineTurn at h
  cases hb : s.busy <;> simp only [hb, Bool.false_eq_true, if_false, if_true] at h
  · exact .inl ⟨rfl, (Host.Outcome.next.inj h).symm⟩
  · cases hp : s.pending with
    | none => simp [hp] at h
    | some p => exact .inr ⟨p, rfl, rfl, by simpa [hp] using h⟩

/-- Everything a step can do: with the turns left over, the host moves, the engine completes its command, the engine
has nothing to complete, or a reset comes. -/
theorem step_cases {s t : State} (h : step s = .next t) : ∃ ts,
    t = hostMove (s.setTurns ts) ∨
    (∃ p, s.busy = true ∧ s.pending = some p ∧ exec p.op (s.setTurns ts) = .next t) ∨
    (s.busy = false ∧ t = s.setTurns ts) ∨
    t = resetEngine (s.setTurns ts) := by
  unfold step at h
  split at h
  · next ts _ => exact ⟨ts, .inl (Host.Outcome.next.inj h).symm⟩
  · next ts _ =>
    rcases engineTurn_cases h with ⟨hb, ht⟩ | ⟨p, hb, hp, he⟩
    · exact ⟨ts, .inr (.inr (.inl ⟨hb, ht⟩))⟩
    · exact ⟨ts, .inr (.inl ⟨p, hb, hp, he⟩)⟩
  · next ts _ => exact ⟨ts, .inr (.inr (.inr (Host.Outcome.next.inj h).symm))⟩
  · next hts =>
    cases hb : s.busy <;> simp only [hb, Bool.false_eq_true, if_false, if_true] at h
    · exact ⟨s.turns, .inl (Host.Outcome.next.inj h).symm⟩
    · rcases engineTurn_cases h with ⟨hb', _⟩ | ⟨p, _, hp, he⟩
      · simp [hb] at hb'
      · exact ⟨s.turns, .inr (.inl ⟨p, rfl, hp, he⟩)⟩

/-- A run of no step. -/
theorem run_zero (s : State) : Sys2Proof.core.run 0 s = .next s := rfl

/-- A run whose first step answers a next state goes on from there. -/
theorem run_succ_of_next {s t : State} (h : step s = .next t) (k : Nat) :
    Sys2Proof.core.run (k + 1) s = Sys2Proof.core.run k t := by
  simp only [Host.Core.run]
  rw [show Sys2Proof.core.step s = .next t from h]

end Sys2Proof.Machine
end

