-- ==== Sys2Proof/Laws/Values.lean ====
section
/-! SUPPORT. Laws/Values.lean: the values and widths of 00_scope.md R13 and R14. -/

namespace Sys2Proof.Machine

theorem int8_range (b : Byte) : -128 ≤ int8 b ∧ int8 b ≤ 127 := by
  have := b.isLt
  unfold int8
  split <;> constructor <;> omega

theorem wrap8_range (x : Int) : -128 ≤ wrap8 x ∧ wrap8 x ≤ 127 := by unfold wrap8; omega

theorem wrap8_of_mem {x : Int} (h : -128 ≤ x ∧ x ≤ 127) : wrap8 x = x := by unfold wrap8; omega

/-- A stored result reads back wrapped. -/
theorem int8_storedByte (x : Int) : int8 (storedByte x) = wrap8 x := by
  have h := wrap8_range x
  simp only [int8, storedByte, byteOf, BitVec.toNat_ofNat]
  split <;> omega

/-- A stored result in range reads back as itself. -/
theorem int8_storedByte_of_inRange {x : Int} (h : outOfRange x = false) : int8 (storedByte x) = x := by
  rw [int8_storedByte]
  exact wrap8_of_mem (by simp only [outOfRange, decide_eq_false_iff_not] at h; omega)

/-- Storing a byte's own value gives the byte back. -/
theorem storedByte_int8 (b : Byte) : storedByte (int8 b) = b := by
  have hb := b.isLt
  have h := int8_range b
  apply BitVec.eq_of_toNat_eq
  simp only [storedByte, byteOf, wrap8_of_mem h, BitVec.toNat_ofNat]
  unfold int8
  split <;> omega

@[simp] theorem int8_zero : int8 0#8 = 0 := by decide

@[simp] theorem storedByte_zero : storedByte 0 = 0#8 := by decide

end Sys2Proof.Machine
end

