-- ==== Sys2Proof/Tests/Slice0.lean ====
section
/-! SUPPORT. Tests/Slice0.lean: the well-formedness smoke tests, the decoding of written-out words, one step per command
against the vectors of 95_test_vectors.md, and a witness for the hypotheses of every statement. Expected values come
from the spec's tables; the EX parameter set (92_eei_decisions.md D29) stands here and nowhere in the model. -/

namespace Sys2Proof.Tests

open Sys2Proof.Machine

/-! ### Helpers -/

/-- T_EX of 95_test_vectors.md. -/
def exTable : Vector (BitVec 6) 64 :=
  #v[0, 2, 3, 5, 6, 8, 9, 11, 12, 14, 15, 17, 18, 20, 21, 23,
     24, 26, 27, 28, 30, 31, 32, 34, 35, 36, 38, 39, 40, 41, 42, 43,
     45, 46, 47, 48, 49, 50, 51, 52, 52, 53, 54, 55, 56, 56, 57, 58,
     58, 59, 59, 60, 60, 61, 61, 61, 62, 62, 62, 63, 63, 63, 63, 63]

/-- The EX parameter set with the given SINE_AT_64 (63 for EX63, 64 for EX64). -/
def exRom (at64 : BitVec 7) : SineRom := ⟨exTable, at64⟩

/-- Bytes from signed decimals, at addresses from 0. -/
def bytes (xs : List Int) : Memory := xs.zipIdx.map fun x => (x.2, byteOf x.1)

/-- An idle engine with EX parameters, BUF from address 0, LEN and operands. -/
def idle (at64 : BitVec 7) (buf : List Int) (len : Byte) (a b c d e : Int) : State :=
  { State.reset with
    rom := exRom at64
    buf := bytes buf
    len := len
    ops := ⟨byteOf a, byteOf b, byteOf c, byteOf d, byteOf e⟩ }

/-- The state after one step, if the step answers one. -/
def after (s : State) : Option State :=
  match step s with
  | .next t => some t
  | .fault _ => none
  | .refused _ => none

/-- One step that runs the command word `w`. -/
def ran (w : Nat) (s : State) : Option State := after (s.withFetchWord 8 w)

/-- RES0..RES3 as signed numbers, and STATUS. -/
def results (t : State) : List Int × Byte :=
  ([int8 t.res.r0, int8 t.res.r1, int8 t.res.r2, int8 t.res.r3], t.status)

/-- The first bytes of BUF as signed numbers, and STATUS. -/
def front (n : Nat) (t : State) : List Int × Byte := ((List.range n).map fun i => int8 (t.bufByte i), t.status)

/-! ### Well-formedness: an ill-formed term for each check -/

theorem test_read_with_data_is_ill_formed : (Transaction.mk false 0x202#10 0x01#8).wellFormed = false := by decide

theorem test_read_word_with_data_is_refused : decodeTransaction 0x20201#19 = .error .readData := by decide

theorem test_unsorted_memory_is_not_canonical : ¬ Memory.wf [(1, 0#8), (0, 0#8)] := by decide

theorem test_repeated_address_is_not_canonical : ¬ Memory.wf [(1, 0#8), (1, 0#8)] := by decide

theorem test_address_256_is_not_canonical : ¬ Memory.wf [(256, 0#8)] := by decide

theorem test_decreasing_table_is_not_admissible :
    ¬ SineRom.Admissible ⟨exTable.set 63 0#6, 63#7⟩ := fun h => absurd (h 62 63 (by decide)) (by decide)

theorem test_commands_are_well_formed : ∀ i ∈ [Instr.fft, .bitrev, .mul, .romrd, .twid, .bfly],
    i.wellFormed = true := by decide

/-! ### Decoding (30_encoding.md R84: Z in bits 7:4, OP in bits 3:0) -/

theorem test_decode_fft : decode [0b00000001#8] = .ok (.fft, []) := by rfl
theorem test_decode_bitrev : decode [0b00000010#8] = .ok (.bitrev, []) := by rfl
theorem test_decode_mul : decode [0b00000011#8] = .ok (.mul, []) := by rfl
theorem test_decode_romrd : decode [0b00000100#8] = .ok (.romrd, []) := by rfl
theorem test_decode_twid : decode [0b00000101#8] = .ok (.twid, []) := by rfl
theorem test_decode_bfly : decode [0b00000110#8, 0xFF#8] = .ok (.bfly, [0xFF#8]) := by rfl
theorem test_decode_zero_is_illegal : decode [0x00#8] = .error .reservedOp := by rfl
theorem test_decode_seven_is_illegal : decode [0x07#8] = .error .reservedOp := by rfl
theorem test_decode_nonzero_z_is_illegal : decode [0x81#8] = .error .reservedZ := by rfl
theorem test_decode_nothing : decode [] = .error .truncated := by rfl
/-- The 19-bit words of 95_test_vectors.md P1 and P2. -/
theorem test_transaction_words :
    (wr (opAddr 0) 0x64#8).word = 0x60464#19 ∧ (wr (bufAddr 1) 20#8).word = 0x40114#19 ∧
      (rd (resAddr 0)).word = 0x20C00#19 ∧ clrst.word = 0x6023E#19 := by decide

/-! ### One step per command (95_test_vectors.md part 2) -/

theorem test_mul_negative :
    (ran 3 (idle 63 [] 0 100 (-50) 0 0 0)).map results = some ([-39, 0, 0, 0], 0x02#8) := by decide
theorem test_mul_overflow :
    (ran 3 (idle 63 [] 0 (-128) (-128) 0 0 0)).map results = some ([-128, 0, 0, 0], 0x0A#8) := by decide
theorem test_romrd_ignores_bit_6 :
    (ran 4 (idle 63 [] 0 0x41 0 0 0 0)).map results = some ([2, 0, 0, 0], 0x02#8) := by decide
theorem test_romrd_last_entry :
    (ran 4 (idle 63 [] 0 0xFF 0 0 0 0)).map results = some ([63, 0, 0, 0], 0x02#8) := by decide
theorem test_twid_quarter :
    (ran 5 (idle 64 [] 0 0x40 0 0 0 0)).map results = some ([0, -64, 0, 0], 0x02#8) := by decide
theorem test_twid_third_octant :
    (ran 5 (idle 64 [] 0 0x70 0 0 0 0)).map results = some ([-58, -24, 0, 0], 0x02#8) := by decide
theorem test_bfly_overflow :
    (ran 6 (idle 63 [] 0 (-128) (-128) (-128) (-128) 32)).map results =
      some ([102, -64, 26, -64], 0x0A#8) := by decide
theorem test_bfly_second_quadrant :
    (ran 6 (idle 64 [] 0 (-50) 25 100 (-100) 96)).map results = some ([-95, 12, 45, 12], 0x02#8) := by decide
theorem test_bitrev_eight :
    (ran 2 (idle 63 [10, 11, 12, 13, 14, 15, 16, 17, 99] 3 0 0 0 0 0)).map (front 9) =
      some ([10, 14, 12, 16, 11, 15, 13, 17, 99], 0x02#8) := by decide
theorem test_bitrev_guard :
    (ran 2 (idle 63 [1, 2] 9 0 0 0 0 0)).map (front 2) = some ([1, 2], 0x06#8) := by decide
theorem test_fft_four :
    (ran 1 (idle 64 [0, 127, 0, 0] 2 0 0 0 0 0)).map (front 4) = some ([32, 0, 0, -31], 0x02#8) := by decide
theorem test_fft_eight_ramp :
    (ran 1 (idle 63 [0, 16, 32, 48, 64, 80, 96, 112] 3 0 0 0 0 0)).map (front 8) =
      some ([54, -9, -8, -7, 0, 18, 8, 3], 0x02#8) := by decide

/-! ### The host port -/

/-- 95_test_vectors.md P4 step 1: the byte 0x00 is illegal. -/
theorem test_illegal_command_flags : (memWrite cmdAddr 0x00#8 (idle 63 [] 0 0 0 0 0 0)).status = 0x10#8 := by decide
/-- 20_memory.md R57. -/
theorem test_buf_read_while_busy :
    (memRead 0x000#10 (accept .mul (idle 63 [17] 0 0 0 0 0 0))).1 = 0#8 ∧
      (memRead 0x000#10 (accept .mul (idle 63 [17] 0 0 0 0 0 0))).2.status = 0x21#8 := by decide
/-- 10_state.md R23: LEN[7:4] reads 0. -/
theorem test_len_drops_its_high_bits : (memWrite lenAddr 0xF9#8 (idle 63 [] 0 0 0 0 0 0)).len = 0x09#8 := by decide
/-- 70_reset_and_hazards.md R232. -/
theorem test_reset_in_fft_keeps_the_rest :
    (resetEngine (accept .fft (idle 63 [1, 2, 3] 1 0 0 0 0 0))).bufByte 2 = 3#8 := by decide

/-! ### Witnesses: states and operands that meet the hypotheses of each statement -/

/-- A busy engine that has accepted `i` with LEN.M = m. -/
def busyWith (i : Instr) (m : Byte) : State := accept i (idle 63 [7, 9] m 1 2 3 4 5)

/-- The latch of `busyWith`. -/
def latchOf (i : Instr) (m : Byte) : Pending := (idle 63 [7, 9] m 1 2 3 4 5).latch i

theorem holds_busyWith (i : Instr) (m : Byte) : (busyWith i m).Holds i (latchOf i m) := by
  refine ⟨?_, rfl, rfl⟩
  simp [busyWith, State.busy, State.has]

/-- The host of `s` is about to run the line `l`. -/
def atLine (s : State) (l : HostLine) : State := s.setHost ⟨[l], 0, []⟩

theorem exRom_admissible (p : BitVec 7) : (exRom p).Admissible := by
  show ∀ i j : Fin 64, i ≤ j → (exTable[i]).toNat ≤ (exTable[j]).toNat
  decide

theorem idle_inv : (idle 63 [7, 9] 1 0 0 0 0 0).Inv where
  bufWf := by decide
  imWf := by decide
  lenReserved := by decide
  statusReserved := by decide
  busyIffPending := by decide
  latched := by intro p h; cases h
  busyNotDone := by decide
  romAdmissible := exRom_admissible 63

theorem busy_inv (i : Instr) : (busyWith i 1#8).Inv where
  bufWf := by cases i <;> decide
  imWf := by cases i <;> decide
  lenReserved := by cases i <;> decide
  statusReserved := by cases i <;> decide
  busyIffPending := by simp [busyWith, State.busy, State.has]
  latched := by intro p h; cases h; rfl
  busyNotDone := by simp [busyWith, State.has]
  romAdmissible := exRom_admissible 63

theorem witness_CommandEncodingRoundTrip : decodeByte 0x06#8 = .ok .bfly := by rfl

theorem witness_TransactionWordRoundTrip :
    (Transaction.mk false 0x3FF#10 0x00#8).wellFormed = true ∧
      decodeTransaction 0x60001#19 = .ok ⟨true, 0x200#10, 0x01#8⟩ := by decide

theorem witness_BusReadReturnsTheMappedByte :
    (idle 63 [7] 0 0 0 0 0 0).busy = false ∧ (busyWith .mul 0#8).busy = true ∧
      memRead (bufAddr 255) (busyWith .mul 0#8) = (0#8, (busyWith .mul 0#8).raise .accErr) ∧
      ∀ a ∈ [0x100#10, 0x1FF#10, 0x203#10, 0x209#10, 0x20B#10, 0x210#10, 0x3FF#10], placeOf a = .reserved := by
  refine ⟨by decide, by decide, ?_, by decide⟩
  rfl

theorem witness_BusWriteHasTheMappedEffect :
    (idle 63 [7] 0 0 0 0 0 0).busy = false ∧ (busyWith .mul 0#8).busy = true ∧
      (memWrite (bufAddr 255) 5#8 (idle 63 [7] 0 0 0 0 0 0)).bufByte 255 = 5#8 ∧
      (∀ a ∈ [0x000#10, 0x0FF#10, 0x200#10, 0x201#10, 0x204#10, 0x208#10],
        (memWrite a 1#8 (busyWith .mul 0#8)).has .accErr = true) ∧
      (∀ a ∈ [0x20C#10, 0x20F#10], ∃ k, placeOf a = .res k) := by
  refine ⟨by decide, by decide, by decide, by decide, ?_⟩
  intro a ha
  rcases List.mem_cons.1 ha with rfl | ha
  · exact ⟨0, by decide⟩
  · rcases List.mem_cons.1 ha with rfl | ha
    · exact ⟨3, by decide⟩
    · cases ha

theorem witness_CmdWriteAcceptsOrFlags :
    (idle 63 [] 3 0 0 0 0 0).busy = false ∧ (busyWith .mul 0#8).busy = true ∧
      decodeByte 0x01#8 = .ok .fft ∧ decodeByte 0x06#8 = .ok .bfly ∧
      (memWrite cmdAddr 0x07#8 (idle 63 [] 3 0 0 0 0 0)).has .cmdErr = true ∧
      (memWrite cmdAddr 0xFF#8 (idle 63 [] 3 0 0 0 0 0)).has .cmdErr = true ∧
      (memWrite cmdAddr 0x00#8 (busyWith .mul 0#8)).has .cmdErr = false :=
  ⟨by decide, by decide, rfl, rfl, by decide, by decide, by decide⟩

theorem witness_StatusWriteClearsTheOnes :
    Flag.done ≠ .busy ∧ (memWrite statusAddr 0x3F#8 ((busyWith .mul 0#8).raise .accErr)).status = 0x01#8 := by
  decide

theorem witness_RefusedAccessesOnlySetAccErr :
    (busyWith .fft 1#8).busy = true ∧ Refusable ⟨false, 0x0FF#10, 0#8⟩ ∧ Refusable ⟨true, 0x208#10, 0#8⟩ ∧
      ¬ Refusable ⟨true, 0x100#10, 0#8⟩ ∧ ¬ Refusable ⟨false, 0x200#10, 0#8⟩ ∧ ¬ Refusable ⟨true, 0x202#10, 0#8⟩ ∧
      ¬ Refusable ⟨true, 0x209#10, 0#8⟩ ∧
      (transact ⟨true, 0x203#10, 0#8⟩ ((busyWith .fft 1#8).raise .accErr)).has .accErr = true := by
  refine ⟨by decide, ?_, ?_, ?_, ?_, ?_, ?_, by decide⟩ <;> simp [Refusable]

theorem witness_HostCannotDisturbACommand :
    (atLine (busyWith .fft 1#8) (wr (bufAddr 0) 5#8)).busy = true ∧
      (hostMove (atLine (busyWith .fft 1#8) (wr (bufAddr 0) 5#8))).bufByte 0 = 7#8 := by decide

theorem witness_AtMostOneConditionPerStep :
    ((idle 63 [] 0 0 0 0 0 0).has .cmdErr = false ∧
      (transact ⟨true, cmdAddr, 0#8⟩ (idle 63 [] 0 0 0 0 0 0)).has .cmdErr = true) ∧
    ∃ t, exec .fft (busyWith .fft 0#8) = .next t ∧ t.has .sizeErr = true :=
  ⟨by decide, _, rfl, by decide⟩

theorem witness_PollWaitsForIdle :
    (atLine (busyWith .mul 0#8) poll).host.program[0]? = some poll ∧
      (hostMove (atLine (busyWith .mul 0#8) poll)).host.line = 0 ∧
      (hostMove (atLine (idle 63 [] 0 0 0 0 0 0) poll)).host.line = 1 := by decide

theorem witness_StepRunsThePendingCommand :
    (busyWith .mul 0#8).busy = true ∧ (busyWith .mul 0#8).pending = some (latchOf .mul 0#8) ∧
      (idle 63 [] 0 0 0 0 0 0).busy = false := ⟨by decide, rfl, by decide⟩

theorem witness_FetchedWordRunsNext :
    decodeTableWord 8 1 = some .fft ∧ decodeTableWord 8 6 = some .bfly ∧ decodeTableWord 8 0 = none ∧
      decodeTableWord 8 0x11 = none := by decide

theorem witness_IdleExecIsAcceptThenComplete : (idle 63 [] 0 0 0 0 0 0).pending = none := rfl

theorem witness_CompletionIgnoresLiveRegisters : (busyWith .bfly 0#8).Holds .bfly (latchOf .bfly 0#8) :=
  holds_busyWith _ _

theorem witness_RomrdReadsTheTableEntry : (busyWith .romrd 0#8).Holds .romrd (latchOf .romrd 0#8) ∧
    (1 : Fin 64).val = (latchOf .romrd 0#8).args.a.toNat % 64 := ⟨holds_busyWith _ _, by decide⟩

theorem witness_TwidYieldsTheTwiddlePair : (busyWith .twid 0#8).Holds .twid (latchOf .twid 0#8) ∧
    1 = (latchOf .twid 0#8).args.a.toNat % 128 := ⟨holds_busyWith _ _, by decide⟩

theorem witness_MulRoundsToNearest : (busyWith .mul 0#8).Holds .mul (latchOf .mul 0#8) ∧
    (1 : Int) = (latchOf .mul 0#8).args.a.toInt ∧ (2 : Int) = (latchOf .mul 0#8).args.b.toInt :=
  ⟨holds_busyWith _ _, by decide, by decide⟩

theorem witness_BflyCombinesTopAndBottom : (busyWith .bfly 0#8).Holds .bfly (latchOf .bfly 0#8) ∧
    (3 : Int) = (latchOf .bfly 0#8).args.c.toInt ∧ (4 : Int) = (latchOf .bfly 0#8).args.d.toInt ∧
    ((63, -8) : Int × Int) = twiddle (busyWith .bfly 0#8).rom ((latchOf .bfly 0#8).args.e.toNat % 128) :=
  ⟨holds_busyWith _ _, by decide, by decide, by decide⟩

theorem witness_BitrevPermutesOrGuards :
    (∀ m ∈ [0#8, 1#8, 8#8, 9#8, 15#8], (busyWith .bitrev m).Holds .bitrev (latchOf .bitrev m)) ∧
    (latchOf .bitrev 1#8).m.toNat = 1 ∧ (latchOf .bitrev 8#8).m.toNat = 8 ∧ (latchOf .bitrev 9#8).m.toNat = 9 ∧
    (latchOf .bitrev 0#8).m.toNat = 0 := ⟨fun _ _ => holds_busyWith _ _, by decide⟩

theorem witness_FftSizeGuardIsANoOp :
    (∀ m ∈ [0#8, 9#8, 15#8], (busyWith .fft m).Holds .fft (latchOf .fft m)) ∧
    (latchOf .fft 0#8).m.toNat = 0 ∧ 9 ≤ (latchOf .fft 9#8).m.toNat :=
  ⟨fun _ _ => holds_busyWith _ _, by decide⟩

theorem witness_FftPacksTheStagesResult :
    (∀ m ∈ [1#8, 8#8], (busyWith .fft m).Holds .fft (latchOf .fft m)) ∧
    (latchOf .fft 1#8).m.toNat = 1 ∧ (latchOf .fft 8#8).m.toNat = 8 :=
  ⟨fun _ _ => holds_busyWith _ _, by decide⟩

theorem witness_FftRefinesRecursiveDit :
    (busyWith .fft 1#8).Holds .fft (latchOf .fft 1#8) ∧
    (ran 1 (idle 63 [100, 20] 1 0 0 0 0 0)).map (front 2) = some ([60, 0], 0x02#8) ∧
    ditRec (exRom 63) 1 (fun j => (if j = 0 then 100#8 else 20#8, 0#8)) 0 = (60#8, 0#8) :=
  ⟨holds_busyWith _ _, by decide, by decide⟩

theorem witness_FftOfZeroIsZero :
    (accept .fft (idle 63 [0, 0] 1 0 0 0 0 0)).Holds .fft ((idle 63 [0, 0] 1 0 0 0 0 0).latch .fft) ∧
    ((idle 63 [0, 0] 1 0 0 0 0 0).latch .fft).m.toNat = 1 ∧
    ∀ i < 2, (accept .fft (idle 63 [0, 0] 1 0 0 0 0 0)).bufByte i = 0#8 :=
  ⟨⟨by decide, rfl, rfl⟩, by decide, by decide⟩

theorem witness_FftDependsOnItsInputsAlone :
    (busyWith .fft 1#8).Holds .fft (latchOf .fft 1#8) ∧
    ((busyWith .fft 1#8).setIm [(0, 5#8)]).Holds .fft (latchOf .fft 1#8) ∧
    ∀ i < 2, (busyWith .fft 1#8).bufByte i = ((busyWith .fft 1#8).setIm [(0, 5#8)]).bufByte i :=
  ⟨holds_busyWith _ _, holds_busyWith .fft 1#8, fun _ _ => rfl⟩

theorem witness_BitReversalIsAnInvolution : (1 : Nat) < 2 ^ 3 ∧ revBits 3 1 = 4 ∧ revBits 8 3 = 192 ∧
    revBits 8 0x5A = 0x5A := by decide

theorem witness_IndexWalkIsThePermuter :
    bufRead (walkBitRev 2 (bytes [0, 1, 2, 3])) 1 = 2#8 ∧ bufRead (bitRev 2 (bytes [0, 1, 2, 3])) 1 = 2#8 := by decide

theorem witness_MultiplierRounding : mulRound (-128) (-128) = 128 ∧ mulRound (-128) 127 = -127 ∧
    mulRound 1 64 = 1 ∧ mulRound (-1) 64 = 0 ∧ mulRound 3 (-43) = -1 := by decide

theorem witness_TwiddleSignsAndRanges :
    twiddle (exRom 64) 63 = (2, -63) ∧ twiddle (exRom 64) 64 = (0, -64) ∧ twiddle (exRom 64) 127 = (-63, -2) := by
  decide

theorem witness_ButterflyRanges :
    (∀ x ∈ [(-128 : Int), 127, -128, 127], -128 ≤ x ∧ x ≤ 127) ∧ (exRom 64).at64.toNat ≤ 64 ∧
      butterfly (exRom 64) 127 127 127 127 127 = ⟨2, -2, 124, 128⟩ := by decide

theorem witness_PassPairsPartitionTheIndices : passPairs (2 ^ 2) (2 ^ 1) = [(0, 0), (1, 1)] := by decide

theorem witness_PassOrderDoesNotMatter :
    [(1, 1), (0, 0)].Perm (passPairs (2 ^ 2) (2 ^ 1)) ∧ 1 < 2 := by decide

theorem witness_PhaseStaysInTheHalfPeriod : blockPhase 0 127 = 127 ∧ blockPhase 7 0 = 0 ∧ blockPhase 6 1 = 64 := by
  decide

theorem witness_WrapAndStoreByte : wrap8 (-154) = 102 ∧ wrap8 128 = -128 ∧ wrap8 (-128) = -128 := by decide

theorem witness_CanonicalMemoriesAreEqualData : Memory.wf [(0, 1#8), (255, 2#8)] := by decide

theorem witness_ResetEventEffect :
    (busyWith .fft 1#8).pending = some (latchOf .fft 1#8) ∧ (latchOf .fft 1#8).op = .fft ∧
    (latchOf .bitrev 8#8).m.toNat = 8 ∧ (busyWith .mul 1#8).pending = some (latchOf .mul 1#8) ∧
    ¬ ((latchOf .mul 1#8).op = .fft ∨ (latchOf .mul 1#8).op = .bitrev) ∧
    (resetEngine (busyWith .fft 1#8)).draws = 2 ∧ (resetEngine (busyWith .mul 1#8)).bufByte 0 = 7#8 :=
  ⟨rfl, rfl, by decide, rfl, by decide, by decide, by decide⟩

theorem witness_StepKeepsTheInvariant : (busyWith .fft 1#8).Inv ∧ (after (busyWith .fft 1#8)).isSome = true ∧
    (idle 63 [7, 9] 1 0 0 0 0 0).Inv ∧ (after (idle 63 [7, 9] 1 0 0 0 0 0)).isSome = true :=
  ⟨busy_inv _, by decide, idle_inv, by decide⟩

theorem witness_NoStepStops : (busyWith .bfly 1#8).Inv := busy_inv _

/-- With a completion before the reset that follows it DONE is set; with the reset first it is not. -/
theorem witness_AcceptedCommandCompletes :
    (busyWith .mul 0#8).busy = true ∧ (busyWith .mul 0#8).pending = some (latchOf .mul 0#8) ∧
    (after ((busyWith .mul 0#8).setTurns [.engine, .reset])).map (fun t => (t.busy, t.has .done)) =
      some (false, true) ∧
    (after ((busyWith .mul 0#8).setTurns [.reset, .engine])).map (fun t => (t.busy, t.has .done)) =
      some (false, false) := ⟨by decide, rfl, by decide, by decide⟩

/-- The flag CMD_ERR is set, and the next step is a host write of 0x10 to STATUS. -/
theorem witness_ErrorFlagsAreSticky :
    let s := atLine ((idle 63 [] 0 0 0 0 0 0).raise .cmdErr) (wr statusAddr 0x10#8)
    s.has .cmdErr = true ∧ (after s).map (fun t => t.has .cmdErr) = some false := by decide

theorem witness_BusyRisesAndFalls :
    (after (atLine (idle 63 [] 0 0 0 0 0 0) (wr cmdAddr 3#8))).map (fun t => t.busy) = some true ∧
    (after (busyWith .mul 0#8)).map (fun t => t.busy) = some false := by decide

theorem witness_BufferChangesOnlyByItsWriters :
    (after (atLine (idle 63 [7] 0 0 0 0 0 0) (wr (bufAddr 0) 8#8))).map (fun t => t.bufByte 0) = some 8#8 ∧
    (after (busyWith .fft 1#8)).map (fun t => t.bufByte 1) = some 0#8 ∧
    (busyWith .fft 1#8).bufByte 1 = 9#8 := by decide

theorem witness_ResultsChangeOnlyAtCompletion :
    (after (busyWith .romrd 0#8)).map (fun t => t.res.r0) = some 2#8 ∧ (busyWith .romrd 0#8).res.r0 = 0#8 := by decide

theorem witness_RomIsNeverWritten : (after (busyWith .twid 0#8)).isSome = true := by decide

theorem witness_ImIsNeverObserved :
    (busyWith .fft 1#8).setIm [] = ((busyWith .fft 1#8).setIm [(0, 5#8)]).setIm [] ∧
    (after (busyWith .fft 1#8)).isSome = true := ⟨rfl, by decide⟩

theorem witness_RacingOperandWrite :
    (atLine (busyWith .mul 0#8) (wr (opAddr 4) 9#8)).Holds .mul (latchOf .mul 0#8) ∧
    (atLine (busyWith .mul 0#8) (wr (opAddr 4) 9#8)).HostWrites (opAddr 4) 9#8 :=
  ⟨holds_busyWith .mul 0#8, rfl⟩

theorem witness_EndedRunStaysEnded : (idle 63 [7] 0 0 0 0 0 0).RunEnded ∧ (idle 63 [7] 0 0 0 0 0 0).turns = [] := by
  refine ⟨⟨?_, ?_⟩, rfl⟩ <;> decide

/-- Every command that was fetched from reset runs as the first step (a size-guarded FFT there, since LEN resets to
0, 10_state.md R36). -/
theorem test_fft_from_reset_takes_the_guard : (ran 1 State.reset).map (fun t => t.status) = some 0x06#8 := by decide

theorem test_romrd_from_reset_completes : (ran 4 State.reset).map (fun t => t.status) = some 0x02#8 := by decide

end Sys2Proof.Tests
end

section
/-! PROOFS of 20_memory.md: the read of every class of the address map (R51, R52), and the obligation assembled from
them. -/

namespace Sys2Proof.Machine

section Reads

variable {a : HostAddr} (s : State)

/-! ### The classes of addresses that the laws leave open -/

theorem placeOf_bufAddr {i : Nat} (h : i < 256) : placeOf (bufAddr i) = .buf i :=
  placeOf_buf_iff.2 ⟨bufAddr_toNat h, by omega⟩

/-- The reserved ranges of the address map (20_memory.md R51). -/
theorem placeOf_reserved_iff : placeOf a = .reserved ↔
    (0x100 ≤ a.toNat ∧ a.toNat ≤ 0x1FF) ∨ a.toNat = 0x203 ∨
      (0x209 ≤ a.toNat ∧ a.toNat ≤ 0x20B) ∨ 0x210 ≤ a.toNat := by
  unfold placeOf
  simp only
  repeat' split
  all_goals simp only [reduceCtorEq, false_iff, true_iff]
  all_goals omega

/-! ### The read of each class -/

theorem memRead_buf_idle {i : Nat} (h : placeOf a = .buf i) (hb : s.busy = false) :
    memRead a s = (s.bufByte i, s) := by
  simp [memRead, h, hb]

theorem memRead_buf_busy {i : Nat} (h : placeOf a = .buf i) (hb : s.busy = true) :
    memRead a s = (0#8, s.raise .accErr) := by
  simp [memRead, h, hb]

theorem memRead_cmd (h : placeOf a = .cmd) : memRead a s = (0#8, s) := by simp [memRead, h]

theorem memRead_len (h : placeOf a = .len) : memRead a s = (s.len, s) := by simp [memRead, h]

theorem memRead_status (h : placeOf a = .status) : memRead a s = (s.status, s) := by simp [memRead, h]

theorem memRead_op {k : Nat} (h : placeOf a = .op k) : memRead a s = (s.ops.get k, s) := by
  simp [memRead, h]

theorem memRead_res {k : Nat} (h : placeOf a = .res k) : memRead a s = (s.res.get k, s) := by
  simp [memRead, h]

theorem memRead_reserved (h : placeOf a = .reserved) : memRead a s = (0#8, s) := by simp [memRead, h]

/-- ACC_ERR is bit 5 of STATUS (10_state.md R25). -/
theorem raise_accErr_eq : s.raise .accErr = { s with status := s.status ||| 0x20#8 } := rfl

/-! ### The read of the registers that share a class, by number -/

theorem memRead_opAddr {k : Nat} (h : k ≤ 4) : memRead (opAddr k) s = (s.ops.get k, s) := by
  refine memRead_op s (placeOf_op_iff.2 ⟨?_, h⟩)
  rw [opAddr, BitVec.toNat_ofNat]
  omega

theorem memRead_resAddr {k : Nat} (h : k ≤ 3) : memRead (resAddr k) s = (s.res.get k, s) := by
  refine memRead_res s (placeOf_res_iff.2 ⟨?_, h⟩)
  rw [resAddr, BitVec.toNat_ofNat]
  omega

end Reads

/-- Settles O4: one read lemma per class of the address map. -/
theorem busReadReturnsTheMappedByte : Obligations.BusReadReturnsTheMappedByte := by
  unfold Obligations.BusReadReturnsTheMappedByte
  intro s
  have hop : ∀ k ≤ 4, memRead (opAddr k) s = (s.ops.get k, s) := fun _ h => memRead_opAddr s h
  have hres : ∀ k ≤ 3, memRead (resAddr k) s = (s.res.get k, s) := fun _ h => memRead_resAddr s h
  exact ⟨fun _ hi hb => memRead_buf_idle s (placeOf_bufAddr hi) hb,
    fun _ hi hb => raise_accErr_eq s ▸ memRead_buf_busy s (placeOf_bufAddr hi) hb,
    memRead_cmd s (placeOf_cmd_iff.2 rfl), memRead_len s (placeOf_len_iff.2 rfl),
    memRead_status s (placeOf_status_iff.2 rfl),
    hop 0 (by decide), hop 1 (by decide), hop 2 (by decide), hop 3 (by decide),
    hop 4 (by decide),
    hres 0 (by decide), hres 1 (by decide), hres 2 (by decide), hres 3 (by decide),
    fun _ ha => memRead_reserved s (placeOf_reserved_iff.2 ha)⟩

end Sys2Proof.Machine
end

section
/-! PROOFS of 30_encoding.md: which bytes are commands (R80, R83, R84), the CMD write with a legal byte, with an illegal
byte and while busy (R81, R82, R83), and the obligation assembled from them. -/

namespace Sys2Proof

/-! ### The fields of a CMD byte and the legal bytes -/

theorem cmdOp_toNat (v : Byte) : (cmdOp v).toNat = v.toNat % 16 := by
  simp [cmdOp, BitVec.extractLsb'_toNat]

theorem cmdZ_eq_zero_iff {v : Byte} : cmdZ v = 0#4 ↔ v.toNat < 16 := by
  have hv := v.isLt
  have hz : (cmdZ v).toNat = v.toNat / 16 % 16 := by
    simp [cmdZ, BitVec.extractLsb'_toNat, Nat.shiftRight_eq_div_pow]
  rw [← BitVec.toNat_inj, hz, BitVec.toNat_ofNat]
  omega

/-- The opcode map has a row for OP = 1..6 and no other (30_encoding.md R84). -/
theorem exists_opOf_eq_some_iff {op : BitVec 4} : (∃ i, opOf op = some i) ↔ 1 ≤ op.toNat ∧ op.toNat ≤ 6 := by
  unfold opOf
  split
  case h_7 h1 h2 h3 h4 h5 h6 =>
    simp only [imp_false] at h1 h2 h3 h4 h5 h6
    simp only [reduceCtorEq, exists_false, false_iff]
    omega
  all_goals simp [*]

theorem decodeByte_eq_ok_iff {v : Byte} {i : Instr} :
    decodeByte v = .ok i ↔ v.toNat < 16 ∧ opOf (cmdOp v) = some i := by
  unfold decodeByte
  rw [← cmdZ_eq_zero_iff]
  by_cases hz : cmdZ v = 0#4
  · cases opOf (cmdOp v) <;> simp [hz]
  · simp [hz]

/-- The legal CMD bytes are 0x01..0x06 (30_encoding.md R83). -/
theorem exists_decodeByte_eq_ok_iff {v : Byte} :
    (∃ i, decodeByte v = .ok i) ↔ 1 ≤ v.toNat ∧ v.toNat ≤ 6 := by
  simp only [decodeByte_eq_ok_iff, exists_and_left, exists_opOf_eq_some_iff, cmdOp_toNat]
  omega

end Sys2Proof

namespace Sys2Proof.Machine

section CmdWrite

variable {v : Byte} (s : State)

/-! ### The CMD write -/

theorem placeOf_cmdAddr : placeOf cmdAddr = .cmd := placeOf_cmd_iff.2 rfl

theorem memWrite_cmd_busy (hb : s.busy = true) : memWrite cmdAddr v s = s.raise .accErr := by
  simp [memWrite, placeOf_cmdAddr, hb]

theorem memWrite_cmd_idle (hb : s.busy = false) : memWrite cmdAddr v s = decodeCommand v s := by
  simp [memWrite, placeOf_cmdAddr, hb]

theorem decodeCommand_legal {i : Instr} (h : decodeByte v = .ok i) : decodeCommand v s = accept i s := by
  simp [decodeCommand, h]

theorem decodeCommand_illegal (h : ¬ ∃ i, decodeByte v = .ok i) : decodeCommand v s = s.raise .cmdErr := by
  cases hd : decodeByte v with
  | ok i => exact absurd ⟨i, hd⟩ h
  | error e => simp [decodeCommand, hd]

/-! ### Acceptance and CMD_ERR with STATUS's bits written out (10_state.md R25) -/

theorem accept_eq (i : Instr) : accept i s =
    { s with
      pending := some ⟨i, s.len.extractLsb' 0 4, s.ops⟩
      status := (s.status &&& ~~~0x02#8) ||| 0x01#8 } := rfl

theorem raise_cmdErr_eq : s.raise .cmdErr = { s with status := s.status ||| 0x10#8 } := rfl

theorem accept_busy (i : Instr) : (accept i s).busy = true := by
  simp [State.busy, State.has]

end CmdWrite

/-- Settles O6: idle, by whether the byte decodes; busy, by the refusal of the access. -/
theorem cmdWriteAcceptsOrFlags : Obligations.CmdWriteAcceptsOrFlags := by
  unfold Obligations.CmdWriteAcceptsOrFlags
  intro s v
  refine ⟨fun hb i hi => ?legal, fun hb hv => ?illegal, fun hb h1 h6 => ?becomesBusy, fun hb => ?busy⟩
  case legal => rw [memWrite_cmd_idle s hb, decodeCommand_legal s hi, accept_eq]
  case illegal =>
    have hbad : ¬ ∃ i, decodeByte v = .ok i := by
      rw [exists_decodeByte_eq_ok_iff]
      omega
    rw [memWrite_cmd_idle s hb, decodeCommand_illegal s hbad, raise_cmdErr_eq]
  case becomesBusy =>
    obtain ⟨i, hi⟩ := exists_decodeByte_eq_ok_iff.2 ⟨h1, h6⟩
    rw [memWrite_cmd_idle s hb, decodeCommand_legal s hi, accept_busy]
  case busy => rw [memWrite_cmd_busy s hb, raise_accErr_eq]

end Sys2Proof.Machine
end

section
/-! PROOFS of 40_twiddle.md: acceptance and completion, stated for any command; then the operand fields, the bytes of
the results, the twiddle pair (R103, R105, R106), and the obligations of ROMRD and TWID assembled from them. -/

namespace Sys2Proof.Machine

/-! ### Acceptance and completion of a command -/

theorem acceptedAs_of_decodeByte {i : Instr} {v : Byte} (h : decodeByte v = .ok i) : AcceptedAs i v := by
  intro s hidle
  rw [memWrite_cmd_idle s hidle, decodeCommand_legal s h]
  exact ⟨accept_busy s i, rfl⟩

/-- `finish` completes whatever new BUF, IM and RES the meaning stored, with the flags it raised. A meaning that leaves
a part alone, or raises nothing, is the case of the old part, or of `false`. -/
theorem completes_finish (s : State) (buf im : Memory) (res : Results) (size ovf : Bool) :
    Completes s
      (((((s.setBuf buf).setIm im).setRes res).raiseIf size .sizeErr).raiseIf ovf .ovf).finish size ovf where
  rom := rfl
  len := rfl
  ops := rfl
  host := rfl
  turns := rfl
  draws := rfl
  pending := rfl
  busy := by simp [State.has]
  done := by simp [State.has]
  sizeErr := by simp [State.has, Bool.or_comm]
  ovfFlag := by simp [State.has, Bool.or_comm]
  cmdErr := by simp [State.has]
  accErr := by simp [State.has]
  reserved :=
    calc statusTop (statusAfterComplete (setFlagIf ovf .ovf (setFlagIf size .sizeErr s.status)))
      _ = statusTop s.status := by
        rw [statusTop_statusAfterComplete, statusTop_setFlagIf, statusTop_setFlagIf]

/-- A completion that stores results alone and raises no flag. -/
theorem completes_setRes_finish (s : State) (res : Results) : Completes s (s.setRes res).finish false false :=
  completes_finish s s.buf s.im res false false

/-- A meaning works on what the latch holds (10_state.md R33). -/
theorem State.Holds.command_eq {s : State} {i j : Instr} {p : Pending} (h : s.Holds i p) : s.command j = p := by
  obtain ⟨-, hpending, -⟩ := h
  simp [State.command, hpending]

/-! ### Operand fields and result bytes (30_encoding.md R85, R86) -/

theorem romIndex_eq_mod (b : Byte) : romIndex b = b.toNat % 64 := by
  simp [romIndex, BitVec.extractLsb'_toNat]

theorem phaseIndex_eq_mod (b : Byte) : phaseIndex b = b.toNat % 128 := by
  simp [phaseIndex, BitVec.extractLsb'_toNat]

theorem byteOf_natCast (n : Nat) : byteOf n = BitVec.ofNat 8 n := by
  apply BitVec.eq_of_toNat_eq
  simp only [byteOf, BitVec.toNat_ofNat]
  omega

/-- A value in the range of a byte is stored as it is: its wrap changes nothing. -/
theorem int8_byteOf_of_mem {x : Int} (h : -128 ≤ x ∧ x ≤ 127) : int8 (byteOf x) = x := by
  have hstored : storedByte x = byteOf x := by rw [storedByte, wrap8_of_mem h]
  rw [← hstored, int8_storedByte, wrap8_of_mem h]

/-! ### The ROM accessor (40_twiddle.md R100) -/

theorem romAt_fin (r : SineRom) (i : Fin 64) : romAt r i = (r.table[i]).toNat := dif_pos i.isLt

/-! ### The twiddle pair (40_twiddle.md R103, R105, R106) -/

section Twiddle

variable (r : SineRom) {ph : Nat}

theorem twiddle_of_lt (h : ph < 64) : twiddle r ph = (romAt r (64 - ph), -romAt r ph) := if_pos h

theorem twiddle_of_ge (h : 64 ≤ ph) : twiddle r ph = (-romAt r (ph - 64), -romAt r (128 - ph)) :=
  if_neg (Nat.not_lt.2 h)

theorem twiddle_fst : (twiddle r ph).1 = if ph < 64 then romAt r (64 - ph) else -romAt r (ph - 64) :=
  apply_ite Prod.fst _ _ _

theorem twiddle_snd : (twiddle r ph).2 = if ph < 64 then -romAt r ph else -romAt r (128 - ph) :=
  apply_ite Prod.snd _ _ _

/-- The first quarter: the cosine is not negative, the negated sine not positive. -/
theorem twiddle_range_of_lt (h : ph < 64) :
    0 ≤ (twiddle r ph).1 ∧ (twiddle r ph).1 ≤ 127 ∧ -63 ≤ (twiddle r ph).2 ∧ (twiddle r ph).2 ≤ 0 := by
  rw [twiddle_of_lt r h]
  exact ⟨romAt_nonneg r _, romAt_le_127 r _, neg_le_neg (romAt_le_63 r h), neg_nonpos.2 (romAt_nonneg r _)⟩

/-- The second quarter: neither component is positive. -/
theorem twiddle_range_of_ge (h : 64 ≤ ph) (h' : ph < 128) :
    -63 ≤ (twiddle r ph).1 ∧ (twiddle r ph).1 ≤ 0 ∧ -127 ≤ (twiddle r ph).2 ∧ (twiddle r ph).2 ≤ 0 := by
  rw [twiddle_of_ge r h]
  exact ⟨neg_le_neg (romAt_le_63 r (by omega)), neg_nonpos.2 (romAt_nonneg r _),
    neg_le_neg (romAt_le_127 r _), neg_nonpos.2 (romAt_nonneg r _)⟩

/-- Both components always fit int8, for which reason TWID never sets OVF. -/
theorem twiddle_fits_int8 (h : ph < 128) :
    (-128 ≤ (twiddle r ph).1 ∧ (twiddle r ph).1 ≤ 127) ∧
      (-128 ≤ (twiddle r ph).2 ∧ (twiddle r ph).2 ≤ 127) := by
  by_cases hq : ph < 64
  · have := twiddle_range_of_lt r hq
    omega
  · have := twiddle_range_of_ge r (Nat.not_lt.1 hq) h
    omega

/-- Away from ph = 0 the first quarter's cosine is a table entry. -/
theorem twiddle_fst_le_63 (h : 0 < ph) (h' : ph < 64) : (twiddle r ph).1 ≤ 63 := by
  rw [twiddle_of_lt r h']
  exact romAt_le_63 r (by omega)

/-- Away from ph = 64 the second quarter's negated sine is a negated table entry. -/
theorem twiddle_snd_ge_neg_63 (h : 64 < ph) : -63 ≤ (twiddle r ph).2 := by
  rw [twiddle_of_ge r h.le]
  exact neg_le_neg (romAt_le_63 r (by omega))

/-- Index 64 is read as the cosine of ph = 0. -/
theorem twiddle_zero : twiddle r 0 = ((r.at64.toNat : Int), -((r.table[0]).toNat : Int)) :=
  twiddle_of_lt r (by decide)

/-- Index 64 is read as the sine of ph = 64. -/
theorem twiddle_64 : twiddle r 64 = (-((r.table[0]).toNat : Int), -(r.at64.toNat : Int)) :=
  twiddle_of_ge r (by decide)

end Twiddle

/-! ### ROMRD and TWID at completion, on the latched operand -/

theorem exec_romrd_of_holds {s : State} {p : Pending} (h : s.Holds .romrd p) : exec .romrd s =
    .next (s.setRes { s.res with r0 := byteOf (romAt s.rom (p.args.a.toNat % 64)) }).finish := by
  simp only [exec, execRomrd, h.command_eq, romIndex_eq_mod]

theorem exec_twid_of_holds {s : State} {p : Pending} (h : s.Holds .twid p) : exec .twid s =
    .next (s.setRes { s.res with
      r0 := byteOf (twiddle s.rom (p.args.a.toNat % 128)).1
      r1 := byteOf (twiddle s.rom (p.args.a.toNat % 128)).2 }).finish := by
  simp only [exec, execTwid, h.command_eq, phaseIndex_eq_mod]

/-! ### The obligations -/

/-- Settles O16: the completion is written out, and a table entry is less than 64, so its byte is the entry itself. -/
theorem romrdReadsTheTableEntry : Obligations.RomrdReadsTheTableEntry := by
  unfold Obligations.RomrdReadsTheTableEntry
  refine ⟨acceptedAs_of_decodeByte (by decide), fun s p hp => ⟨_, exec_romrd_of_holds hp, fun i hi => ?entry,
    rfl, rfl, rfl, rfl, rfl, completes_setRes_finish s _⟩⟩
  case entry =>
    have hentry := (s.rom.table[i]).isLt
    rw [State.finish_res, State.setRes_res, ← hi, romAt_fin, byteOf_natCast, BitVec.toNat_ofNat]
    omega

/-- Settles O17: the completion is written out, and both components fit int8, so each reads back from its byte. -/
theorem twidYieldsTheTwiddlePair : Obligations.TwidYieldsTheTwiddlePair := by
  unfold Obligations.TwidYieldsTheTwiddlePair
  refine ⟨acceptedAs_of_decodeByte (by decide), fun s p ph hp hph => ?_⟩
  subst hph
  obtain ⟨hwr, hwi⟩ := twiddle_fits_int8 s.rom (Nat.mod_lt p.args.a.toNat (by decide : 0 < 128))
  exact ⟨_, exec_twid_of_holds hp, (int8_byteOf_of_mem hwr).trans (twiddle_fst s.rom),
    (int8_byteOf_of_mem hwi).trans (twiddle_snd s.rom), rfl, rfl, rfl, rfl, completes_setRes_finish s _⟩

/-- Settles O30: by quarter of the period, from the bounds on the ROM accessor. -/
theorem twiddleSignsAndRanges : Obligations.TwiddleSignsAndRanges := by
  unfold Obligations.TwiddleSignsAndRanges
  intro r ph
  exact ⟨twiddle_range_of_lt r, twiddle_range_of_ge r, twiddle_fst_le_63 r, fun h _ => twiddle_snd_ge_neg_63 r h,
    twiddle_zero r, twiddle_64 r⟩

end Sys2Proof.Machine
end

section
/-! PROOFS of 41_multiply.md: the rounding multiplier (R122-R125), the byte read and stored as a signed number, and the
obligations of MUL assembled from them. -/

namespace Sys2Proof.Machine

/-! ### The rounding multiplier (41_multiply.md R122-R125) -/

/-- R122: the bit shifted out by the second shift is the rounding bit, so adding it back is adding one half. -/
theorem mulRound_eq (a b : Int) : mulRound a b = (a * b + 64) / 128 := by
  simp only [mulRound, asr, lowBit]
  omega

theorem mulRound_comm (a b : Int) : mulRound a b = mulRound b a := by
  rw [mulRound_eq, mulRound_eq, Int.mul_comm]

/-- R123: the result is at most one half from the exact quotient. -/
theorem mulRound_error (a b : Int) :
    -64 ≤ 128 * mulRound a b - a * b ∧ 128 * mulRound a b - a * b ≤ 64 := by
  rw [mulRound_eq]
  omega

/-- R125: Mul is odd but at the products half way between two results, which it rounds up on either side of zero. -/
theorem mulRound_neg_left_iff (a b : Int) : mulRound (-a) b = -mulRound a b ↔ ¬ (a * b) % 128 = 64 := by
  rw [mulRound_eq, mulRound_eq, Int.neg_mul]
  omega

/-- One factor off -128 keeps the product, and so the result, in the range of a byte (R124; R126 uses it with a
twiddle component for the factor). -/
theorem mulRound_range_of_abs_le {a b : Int} (ha : |a| ≤ 127) (hb : |b| ≤ 128) :
    -127 ≤ mulRound a b ∧ mulRound a b ≤ 127 := by
  have hprod : |a * b| ≤ 127 * 128 := by
    rw [abs_mul]
    exact mul_le_mul ha hb (abs_nonneg b) (by decide)
  rw [abs_le] at hprod
  rw [mulRound_eq]
  omega

/-- R124: on signed bytes the one result a byte cannot hold is that of -128 and -128. -/
theorem mulRound_int8_cases {a b : Int} (ha : -128 ≤ a ∧ a ≤ 127) (hb : -128 ≤ b ∧ b ≤ 127) :
    ((a = -128 ∧ b = -128) ∧ mulRound a b = 128) ∨
      (¬ (a = -128 ∧ b = -128) ∧ -127 ≤ mulRound a b ∧ mulRound a b ≤ 127) := by
  have habs : |a| ≤ 128 ∧ |b| ≤ 128 := by simp only [abs_le]; omega
  by_cases hboth : a = -128 ∧ b = -128
  · obtain ⟨rfl, rfl⟩ := hboth
    exact .inl (by decide)
  · refine .inr ⟨hboth, ?_⟩
    by_cases ha' : a = -128
    · rw [mulRound_comm]
      exact mulRound_range_of_abs_le (abs_le.2 (by omega)) habs.1
    · exact mulRound_range_of_abs_le (abs_le.2 (by omega)) habs.2

theorem outOfRange_mulRound {a b : Int} (ha : -128 ≤ a ∧ a ≤ 127) (hb : -128 ≤ b ∧ b ≤ 127) :
    outOfRange (mulRound a b) = decide (a = -128 ∧ b = -128) := by
  have := mulRound_int8_cases ha hb
  rw [outOfRange, decide_eq_decide]
  omega

/-! ### Bytes as signed numbers (00_scope.md R13, 30_encoding.md R86) -/

theorem int8_eq_toInt (b : Byte) : int8 b = b.toInt := by
  rw [int8, BitVec.toInt_eq_toNat_cond]
  split <;> split <;> omega

theorem storedByte_eq_ofInt (x : Int) : storedByte x = BitVec.ofInt 8 x := by
  apply BitVec.eq_of_toNat_eq
  simp only [storedByte, byteOf, wrap8, BitVec.toNat_ofNat, BitVec.toNat_ofInt]
  omega

/-! ### MUL at completion, on the latched operands -/

/-- A completion that stores results and raises OVF where `ovf` says. -/
theorem completes_setRes_raiseIf_ovf_finish (s : State) (res : Results) (ovf : Bool) :
    Completes s ((s.setRes res).raiseIf ovf .ovf).finish false ovf :=
  completes_finish s s.buf s.im res false ovf

theorem exec_mul_of_holds {s : State} {p : Pending} (h : s.Holds .mul p) : exec .mul s =
    .next ((s.setRes { s.res with r0 := storedByte (mulRound (int8 p.args.a) (int8 p.args.b)) }).raiseIf
      (outOfRange (mulRound (int8 p.args.a) (int8 p.args.b))) .ovf).finish := by
  simp only [exec, execMul, h.command_eq]

/-! ### The obligations -/

/-- Settles O18: the completion is written out; its byte is the closed form's low byte, and the result leaves the range
of a byte for -128 and -128 alone. -/
theorem mulRoundsToNearest : Obligations.MulRoundsToNearest := by
  unfold Obligations.MulRoundsToNearest
  refine ⟨acceptedAs_of_decodeByte (by decide), fun s p a b hp ha hb => ?_⟩
  rw [← int8_eq_toInt] at ha hb
  subst ha hb
  refine ⟨_, exec_mul_of_holds hp, ?lowByte, rfl, rfl, rfl, rfl, rfl, ?completes⟩
  case lowByte =>
    rw [← mulRound_eq, ← storedByte_eq_ofInt]
    rfl
  case completes =>
    rw [← outOfRange_mulRound (int8_range _) (int8_range _)]
    exact completes_setRes_raiseIf_ovf_finish s _ _

/-- Settles O29: the clauses for all integers are the closed form's; the range on bytes is read off from the two cases,
both factors -128 or not. -/
theorem multiplierRounding : Obligations.MultiplierRounding := by
  unfold Obligations.MultiplierRounding
  refine ⟨fun a b => ?allIntegers, fun a b hal hau hbl hbu => ?signedBytes⟩
  case allIntegers =>
    obtain ⟨hlow, hhigh⟩ := mulRound_error a b
    exact ⟨mulRound_eq a b, mulRound_comm a b, hlow, hhigh, mulRound_neg_left_iff a b⟩
  case signedBytes =>
    have := mulRound_int8_cases ⟨hal, hau⟩ ⟨hbl, hbu⟩
    omega

end Sys2Proof.Machine
end

section
/-! PROOFS of 42_bitrev.md: the bits of rev_M (R142), the byte that each address holds after the permuter's loop (R143),
BITREV at completion with its size guard (R140, R141), and the obligations assembled from them. -/

namespace Sys2Proof.Machine

/-! ### The bits of rev_M (42_bitrev.md R142) -/

/-- One more bit to reverse puts bit M below the M bits already reversed. -/
theorem revBits_succ (M p : Nat) : revBits (M + 1) p = Nat.bit (p.testBit M) (revBits M p) := by
  have hterm : ∀ t ∈ List.range M,
      ((p >>> t) % 2) <<< (M + 1 - 1 - t) = 2 * (((p >>> t) % 2) <<< (M - 1 - t)) := by
    intro t ht
    have hlt := List.mem_range.1 ht
    rw [show M + 1 - 1 - t = M - 1 - t + 1 by omega, Nat.shiftLeft_succ]
  rw [Nat.bit_val, Nat.toNat_testBit, revBits, List.range_succ, List.map_append, List.sum_append,
    List.map_congr_left hterm, List.sum_map_mul_left, ← revBits]
  simp [Nat.shiftRight_eq_div_pow]

/-- Bit j of rev_M(p) is bit M−1−j of p, and no bit from M on is set. -/
theorem testBit_revBits (M p j : Nat) :
    (revBits M p).testBit j = (decide (j < M) && p.testBit (M - 1 - j)) := by
  induction M generalizing j with
  | zero => simp [revBits]
  | succ M ih =>
    rw [revBits_succ]
    cases j with
    | zero => simp
    | succ j =>
      rw [Nat.testBit_bit_succ, ih, show M + 1 - 1 - (j + 1) = M - 1 - j by omega]
      simp

/-- Below 2^M the reversal is its own inverse (42_bitrev.md R145). -/
theorem revBits_revBits {M p : Nat} (h : p < 2 ^ M) : revBits M (revBits M p) = p := by
  apply Nat.eq_of_testBit_eq
  intro j
  rw [testBit_revBits, testBit_revBits]
  by_cases hj : j < M
  · have hback : M - 1 - (M - 1 - j) = j := by omega
    have hbit : M - 1 - j < M := by omega
    simp [hj, hback, hbit]
  · have hpow : 2 ^ M ≤ 2 ^ j := Nat.pow_le_pow_right (by decide) (by omega)
    simp [hj, Nat.testBit_lt_two_pow (h.trans_le hpow)]

/-- Settles O26: by the reversal's bits, its bound and its being an involution. -/
theorem bitReversalIsAnInvolution : Obligations.BitReversalIsAnInvolution := by
  unfold Obligations.BitReversalIsAnInvolution
  refine fun M p hp => ⟨fun t ht => ?bits, revBits_lt M p, revBits_revBits hp⟩
  case bits =>
    have hback : M - 1 - (M - 1 - t) = t := by omega
    have hbit : M - 1 - t < M := by omega
    simp [testBit_revBits, hback, hbit]

/-! ### The permuter's loop (42_bitrev.md R143) -/

/-- A swap of two bytes reads as the swap of their two addresses. -/
theorem bufRead_swapBytes (p q : Nat) (m : Memory) (a : Nat) :
    bufRead (swapBytes p q m) a = bufRead m (Equiv.swap p q a) := by
  by_cases hq : q = a
  · subst hq
    simp [swapBytes]
  · by_cases hp : p = a
    · subst hp
      simp [swapBytes, bufRead_write_other hq]
    · simp [swapBytes, bufRead_write_other hq, bufRead_write_other hp,
        Equiv.swap_apply_of_ne_of_ne (Ne.symm hp) (Ne.symm hq)]

/-- The address whose old byte address `a` holds after the loop's first `n` turns: the reversal of `a` once the loop has
passed `a` or its partner, and `a` itself before that and from 2^M on. -/
def revSource (M n a : Nat) : Nat :=
  if a < 2 ^ M ∧ (a < n ∨ revBits M a < n) then revBits M a else a

section Source

variable {M n a : Nat}

theorem revSource_of_passed (ha : a < 2 ^ M) (h : a < n ∨ revBits M a < n) : revSource M n a = revBits M a :=
  if_pos ⟨ha, h⟩

theorem revSource_of_not_passed (h : ¬ (a < n ∨ revBits M a < n)) : revSource M n a = a :=
  if_neg fun hpassed => h hpassed.2

theorem revSource_of_ge (h : 2 ^ M ≤ a) : revSource M n a = a :=
  if_neg fun hpassed => Nat.not_lt.2 h hpassed.1

/-- The turn of index `n` concerns `n` and its partner alone. -/
theorem revSource_succ_of_ne (hself : a ≠ n) (hpartner : a ≠ revBits M n) :
    revSource M (n + 1) a = revSource M n a := by
  have hiff : (a < 2 ^ M ∧ (a < n + 1 ∨ revBits M a < n + 1)) ↔ (a < 2 ^ M ∧ (a < n ∨ revBits M a < n)) := by
    refine and_congr_right fun ha => ?_
    have hne : revBits M a ≠ n := fun h => hpartner (h ▸ (revBits_revBits ha).symm)
    omega
  simp only [revSource, hiff]

end Source

/-- The turn of index `n` swaps the sources of `n` and its partner where the partner is greater; where it is not, the
partner's turn has done so. -/
theorem revSource_succ {M n : Nat} (hn : n < 2 ^ M) (a : Nat) : revSource M (n + 1) a =
    revSource M n (if n < revBits M n then Equiv.swap n (revBits M n) a else a) := by
  have hbound := revBits_lt M n
  have hinv := revBits_revBits hn
  by_cases hgt : n < revBits M n
  · rw [if_pos hgt]
    by_cases hself : a = n
    · subst hself
      rw [Equiv.swap_apply_left, revSource_of_passed hn (by omega), revSource_of_not_passed (by omega)]
    · by_cases hpartner : a = revBits M n
      · subst hpartner
        rw [Equiv.swap_apply_right, revSource_of_passed hbound (by omega), revSource_of_not_passed (by omega), hinv]
      · rw [Equiv.swap_apply_of_ne_of_ne hself hpartner, revSource_succ_of_ne hself hpartner]
  · rw [if_neg hgt]
    by_cases hfix : revBits M n = n
    · by_cases hself : a = n
      · subst hself
        rw [revSource_of_passed hn (by omega), revSource_of_not_passed (by omega), hfix]
      · rw [revSource_succ_of_ne hself (by omega)]
    · by_cases hpair : a = n ∨ a = revBits M n
      · have ha : a < 2 ^ M := by omega
        have hpassed : a < n ∨ revBits M a < n := by
          rcases hpair with rfl | rfl <;> omega
        rw [revSource_of_passed ha hpassed, revSource_of_passed ha (by omega)]
      · rw [revSource_succ_of_ne (by omega) (by omega)]

/-- The loop's invariant. -/
theorem bufRead_foldl_revSwap (M : Nat) (m : Memory) {n : Nat} (hn : n ≤ 2 ^ M) (a : Nat) :
    bufRead ((List.range n).foldl (revSwap M) m) a = bufRead m (revSource M n a) := by
  induction n generalizing a with
  | zero => simp [revSource]
  | succ n ih =>
    rw [List.range_succ, List.foldl_concat, revSource_succ hn, ← ih (Nat.le_of_succ_le hn), revSwap]
    split
    · exact bufRead_swapBytes _ _ _ _
    · rfl

/-- After the permuter an address below 2^M holds the byte of its reversal. -/
theorem bufRead_bitRev_of_lt {M a : Nat} (h : a < 2 ^ M) (m : Memory) :
    bufRead (bitRev M m) a = bufRead m (revBits M a) := by
  rw [bitRev, bufRead_foldl_revSwap M m (Nat.le_refl _), revSource_of_passed h (.inl h)]

/-- The permuter leaves every byte from 2^M on as it was. -/
theorem bufRead_bitRev_of_ge {M a : Nat} (h : 2 ^ M ≤ a) (m : Memory) :
    bufRead (bitRev M m) a = bufRead m a := by
  rw [bitRev, bufRead_foldl_revSwap M m (Nat.le_refl _), revSource_of_ge h]

/-! ### BITREV at completion, on the latched exponent (42_bitrev.md R140, R141) -/

theorem sizeGuarded_eq_true_iff {M : Nat} : sizeGuarded M = true ↔ M = 0 ∨ 9 ≤ M := by
  rw [sizeGuarded, decide_eq_true_iff]
  omega

section Completion

variable {s : State} {p : Pending} (h : s.Holds .bitrev p)

include h

theorem exec_bitrev_of_guarded (hM : sizeGuarded p.m.toNat = true) :
    exec .bitrev s = .next (s.raise .sizeErr).finish := by
  simp [exec, execBitrev, h.command_eq, Pending.exponent, hM]

theorem exec_bitrev_of_not_guarded (hM : ¬ sizeGuarded p.m.toNat = true) :
    exec .bitrev s = .next (s.setBuf (bitRev p.m.toNat s.buf)).finish := by
  simp [exec, execBitrev, h.command_eq, Pending.exponent, hM]

end Completion

/-- A completion that stops at the size guard: SIZE_ERR, and nothing stored. -/
theorem completes_raise_sizeErr_finish (s : State) : Completes s (s.raise .sizeErr).finish true false :=
  completes_finish s s.buf s.im s.res true false

/-- A completion that stores BUF alone and raises no flag. -/
theorem completes_setBuf_finish (s : State) (buf : Memory) : Completes s (s.setBuf buf).finish false false :=
  completes_finish s buf s.im s.res false false

/-- Settles O20: by the size guard; past it, the byte that an address holds is the permuter's, and the reversal of a
reversed address is the address. -/
theorem bitrevPermutesOrGuards : Obligations.BitrevPermutesOrGuards := by
  unfold Obligations.BitrevPermutesOrGuards
  refine ⟨acceptedAs_of_decodeByte (by decide), fun s p M hp hM => ?_⟩
  subst hM
  by_cases hguard : sizeGuarded p.m.toNat = true
  · refine ⟨_, exec_bitrev_of_guarded hp hguard, rfl, rfl, fun h1 h8 => ?inRange,
      fun _ => ⟨rfl, completes_raise_sizeErr_finish s⟩⟩
    case inRange =>
      rw [sizeGuarded_eq_true_iff] at hguard
      omega
  · refine ⟨_, exec_bitrev_of_not_guarded hp hguard, rfl, rfl, fun _ _ => ⟨fun q hq => ?moved, fun a ha => ?kept,
      completes_setBuf_finish s _⟩, fun hout => absurd (sizeGuarded_eq_true_iff.2 hout) hguard⟩
    case moved =>
      calc bufRead (bitRev p.m.toNat s.buf) (revBits p.m.toNat q)
        _ = bufRead s.buf (revBits p.m.toNat (revBits p.m.toNat q)) := bufRead_bitRev_of_lt (revBits_lt _ _) _
        _ = bufRead s.buf q := by rw [revBits_revBits hq]
    case kept => exact bufRead_bitRev_of_ge ha s.buf

end Sys2Proof.Machine
end

section
/-! PROOFS of 43_butterfly.md: the butterfly with each product in closed form (R161-R163), its overflow indication
(R164), BFLY at completion (R160), and the obligation assembled from them. -/

namespace Sys2Proof.Machine

/-! ### The butterfly (43_butterfly.md R161-R164) -/

/-- R161-R163: each of the four products is rounded on its own, and the top value is halved by a floor. -/
theorem butterfly_eq (r : SineRom) (ar ai br bi : Int) (ph : Nat) {wr wi tr ti : Int}
    (hw : (wr, wi) = twiddle r ph)
    (htr : tr = (wr * br + 64) / 128 - (wi * bi + 64) / 128)
    (hti : ti = (wr * bi + 64) / 128 + (wi * br + 64) / 128) :
    butterfly r ar ai br bi ph = ⟨ar / 2 + tr, ai / 2 + ti, ar / 2 - tr, ai / 2 - ti⟩ := by
  simp only [butterfly, ← hw, mulRound_eq, ← htr, ← hti, asr, pow_one]

/-- The overflow indication asks the same of each of the four outputs. -/
theorem BflyOut.overflows_eq_any (o : BflyOut) :
    o.overflows = [o.topRe, o.topIm, o.botRe, o.botIm].any outOfRange := by
  simp [BflyOut.overflows, Bool.or_assoc]

/-! ### BFLY at completion, on the latched operands (43_butterfly.md R160) -/

/-- The four result registers as a butterfly's outputs fill them (43_butterfly.md R160, R164). -/
def BflyOut.results (o : BflyOut) : Results :=
  ⟨storedByte o.topRe, storedByte o.topIm, storedByte o.botRe, storedByte o.botIm⟩

/-- The butterfly of the operands that a latch holds. -/
def Pending.butterfly (p : Pending) (r : SineRom) : BflyOut :=
  Machine.butterfly r p.args.a.toInt p.args.b.toInt p.args.c.toInt p.args.d.toInt (p.args.e.toNat % 128)

theorem exec_bfly_of_holds {s : State} {p : Pending} (h : s.Holds .bfly p) : exec .bfly s =
    .next ((s.setRes (p.butterfly s.rom).results).raiseIf (p.butterfly s.rom).overflows .ovf).finish := by
  simp only [exec, execBfly, h.command_eq, int8_eq_toInt, phaseIndex_eq_mod, Pending.butterfly, BflyOut.results]

/-! ### The obligation -/

/-- Settles O19: the completion is written out; the butterfly of the latched operands is the closed form, so its stored
bytes and its overflow are the closed form's. -/
theorem bflyCombinesTopAndBottom : Obligations.BflyCombinesTopAndBottom := by
  unfold Obligations.BflyCombinesTopAndBottom
  refine ⟨acceptedAs_of_decodeByte (by decide), fun s p ar ai br bi wr wi tr ti hp har hai hbr hbi hw htr hti => ?_⟩
  subst har hai hbr hbi
  have hout : p.butterfly s.rom = ⟨_, _, _, _⟩ := butterfly_eq s.rom _ _ _ _ _ hw htr hti
  refine ⟨_, exec_bfly_of_holds hp, ?_⟩
  rw [hout, BflyOut.overflows_eq_any]
  exact ⟨storedByte_eq_ofInt _, storedByte_eq_ofInt _, storedByte_eq_ofInt _, storedByte_eq_ofInt _, rfl, rfl,
    completes_setRes_raiseIf_ovf_finish s _ _⟩

end Sys2Proof.Machine
end

section
/-! PROOFS of 44_transform.md: FFT at completion when the latched exponent is outside 1..8 (R181). -/

namespace Sys2Proof.Machine

/-- The guard alone decides the answer, whatever the transform of BUF and IM would be. -/
theorem exec_fft_of_guarded {s : State} {p : Pending} (h : s.Holds .fft p) (hM : sizeGuarded p.m.toNat = true) :
    exec .fft s = .next (s.raise .sizeErr).finish := by
  simp only [exec, execFft, h.command_eq, Pending.exponent, if_pos hM]

/-- Settles O21: an exponent outside 1..8 is guarded, so FFT ends in the completion that stores nothing and raises
SIZE_ERR. -/
theorem fftSizeGuardIsANoOp : Obligations.FftSizeGuardIsANoOp := by
  unfold Obligations.FftSizeGuardIsANoOp
  intro s p hp hout
  have hguard : sizeGuarded p.m.toNat = true := sizeGuarded_eq_true_iff.2 hout
  exact ⟨_, exec_fft_of_guarded hp hguard, rfl, rfl, rfl, completes_raise_sizeErr_finish s⟩

end Sys2Proof.Machine
end

section
/-! PROOFS of 60_exceptions.md: which accesses are refused and what a refusal does (R205), what every other transaction
does to STATUS, and that only a reset and a STATUS write clear an error flag (R209). -/

namespace Sys2Proof.Machine

/-! ### The refused accesses by class of the address map (R205) -/

theorem exists_placeOf_buf_iff {a : HostAddr} : (∃ i, placeOf a = .buf i) ↔ a.toNat ≤ 0x0FF := by
  simp [placeOf_buf_iff]

theorem exists_placeOf_op_iff {a : HostAddr} : (∃ k, placeOf a = .op k) ↔ 0x204 ≤ a.toNat ∧ a.toNat ≤ 0x208 := by
  simp only [placeOf_op_iff]
  exact ⟨fun ⟨k, hk⟩ => by omega, fun h => ⟨a.toNat - 0x204, by omega⟩⟩

theorem refusable_read_iff {a : HostAddr} {v : Byte} : Refusable ⟨false, a, v⟩ ↔ ∃ i, placeOf a = .buf i := by
  simp [Refusable, exists_placeOf_buf_iff]

theorem refusable_write_iff {a : HostAddr} {v : Byte} : Refusable ⟨true, a, v⟩ ↔
    (∃ i, placeOf a = .buf i) ∨ placeOf a = .cmd ∨ placeOf a = .len ∨ ∃ k, placeOf a = .op k := by
  simp [Refusable, exists_placeOf_buf_iff, placeOf_cmd_iff, placeOf_len_iff, exists_placeOf_op_iff]

section Transactions

variable {a : HostAddr} {v : Byte} {t : Transaction} {f : Flag} {s : State}

/-! ### What a refusal does -/

theorem memRead_of_refused (hb : s.busy = true) (h : Refusable ⟨false, a, v⟩) :
    memRead a s = (0#8, s.raise .accErr) := by
  obtain ⟨i, hi⟩ := refusable_read_iff.1 h
  exact memRead_buf_busy s hi hb

theorem memWrite_of_refused (hb : s.busy = true) (h : Refusable ⟨true, a, v⟩) :
    memWrite a v s = s.raise .accErr := by
  rcases refusable_write_iff.1 h with ⟨i, hi⟩ | hi | hi | ⟨k, hi⟩ <;> simp [memWrite, hi, hb]

theorem transact_of_refused (hb : s.busy = true) (h : Refusable t) :
    transact t s = if t.write then s.raise .accErr else (s.raise .accErr).reply 0#8 := by
  obtain ⟨_ | _, a, v⟩ := t
  · simp [transact, memRead_of_refused hb h]
  · simp [transact, memWrite_of_refused hb h]

/-! ### What a transaction that is not refused does to STATUS -/

theorem memRead_state_of_not_refused (h : ¬ (s.busy = true ∧ Refusable ⟨false, a, v⟩)) : (memRead a s).2 = s := by
  rcases memRead_state a s with hs | ⟨hb, hbuf, -⟩
  · exact hs
  · exact absurd ⟨hb, refusable_read_iff.2 hbuf⟩ h

theorem decodeCommand_status (v : Byte) (s : State) :
    (decodeCommand v s).status = statusAfterAccept s.status ∨
      (decodeCommand v s).status = setFlag .cmdErr s.status := by
  by_cases h : ∃ i, decodeByte v = .ok i
  · obtain ⟨i, hi⟩ := h
    exact .inl (by rw [decodeCommand_legal s hi, accept_status])
  · exact .inr (by rw [decodeCommand_illegal s h, State.raise_status])

theorem memWrite_status_of_not_refused (h : ¬ (s.busy = true ∧ Refusable ⟨true, a, v⟩)) :
    (memWrite a v s).status = s.status ∨
    (a = statusAddr ∧ (memWrite a v s).status = statusAfterWrite v s.status) ∨
    (memWrite a v s).status = statusAfterAccept s.status ∨
    (memWrite a v s).status = setFlag .cmdErr s.status := by
  have hidle (hr : Refusable ⟨true, a, v⟩) : s.busy = false := by simpa [hr] using h
  rw [refusable_write_iff] at hidle
  cases hp : placeOf a with
  | buf i => exact .inl (by simp [memWrite, hp, hidle (.inl ⟨i, hp⟩)])
  | cmd =>
    have hw : memWrite a v s = decodeCommand v s := by simp [memWrite, hp, hidle (.inr (.inl hp))]
    exact .inr (.inr (hw ▸ decodeCommand_status v s))
  | len => exact .inl (by simp [memWrite, hp, hidle (.inr (.inr (.inl hp)))])
  | status => exact .inr (.inl ⟨BitVec.eq_of_toNat_eq (placeOf_status_iff.1 hp), by simp [memWrite, hp]⟩)
  | op k => exact .inl (by simp [memWrite, hp, hidle (.inr (.inr (.inr ⟨k, hp⟩)))])
  | res k => exact .inl (by simp [memWrite, hp])
  | reserved => exact .inl (by simp [memWrite, hp])

/-- STATUS after a transaction that is not refused: as it was, or what the STATUS write, acceptance or CMD_ERR makes
of it. -/
theorem transact_status_of_not_refused (h : ¬ (s.busy = true ∧ Refusable t)) :
    (transact t s).status = s.status ∨
    (t.write = true ∧ t.addr = statusAddr ∧ (transact t s).status = statusAfterWrite t.data s.status) ∨
    (transact t s).status = statusAfterAccept s.status ∨
    (transact t s).status = setFlag .cmdErr s.status := by
  obtain ⟨_ | _, a, v⟩ := t
  · exact .inl (by simp [transact, memRead_state_of_not_refused h])
  · simpa [transact] using memWrite_status_of_not_refused h

/-! ### ACC_ERR -/

theorem accErr_of_transact_not_refused (h : ¬ (s.busy = true ∧ Refusable t))
    (hafter : (transact t s).has .accErr = true) : s.has .accErr = true := by
  rcases transact_status_of_not_refused h with hst | ⟨-, -, hst⟩ | hst | hst
  all_goals simp only [State.has, hst] at hafter ⊢
  · exact hafter
  · rw [hasFlag_statusAfterWrite, Bool.and_eq_true] at hafter
    exact hafter.1
  · simpa using hafter
  · simpa using hafter

/-! ### The error flags over a transaction and over the host's move (R209) -/

theorem transact_clears_error (hf : f.isError = true) (hset : s.has f = true)
    (hclear : (transact t s).has f = false) :
    t.write = true ∧ t.addr = statusAddr ∧ t.data.getLsbD f.bit = true := by
  by_cases h : s.busy = true ∧ Refusable t
  · have hst : (transact t s).status = setFlag .accErr s.status := by
      rw [transact_of_refused h.1 h.2]
      split <;> simp
    simp only [State.has, hst] at hset hclear
    simp [hset] at hclear
  · rcases transact_status_of_not_refused h with hst | ⟨hw, ha, hst⟩ | hst | hst
    all_goals simp only [State.has, hst] at hset hclear
    · simp [hset] at hclear
    · rw [hasFlag_statusAfterWrite, hset] at hclear
      simp only [Bool.true_and, Bool.or_eq_false_iff, Bool.not_eq_false'] at hclear
      exact ⟨hw, ha, hclear.2⟩
    · have hdone : f ≠ .done := by rintro rfl; cases hf
      simp [hset, hdone] at hclear
    · simp [hset] at hclear

/-- The host's move changes STATUS as the transaction of its line does; a write is the line itself. -/
theorem hostMove_status (s : State) : (hostMove s).status = s.status ∨
    ∃ t, (hostMove s).status = (transact t s).status ∧
      (t.write = true → s.host.program[s.host.line]? = some (.bus t)) := by
  unfold hostMove
  split
  · exact .inl rfl
  · next t hline => exact .inr ⟨t, rfl, fun _ => hline⟩
  · next addr _ _ _ => exact .inr ⟨⟨false, addr, 0#8⟩, rfl, nofun⟩

theorem hostMove_clears_error (hf : f.isError = true) (hset : s.has f = true) (hclear : (hostMove s).has f = false) :
    ∃ v, s.HostWrites statusAddr v ∧ v.getLsbD f.bit = true := by
  rcases hostMove_status s with hst | ⟨⟨w, a, v⟩, hst, hline⟩
  · simp only [State.has] at hset hclear
    simp [hst, hset] at hclear
  · simp only [State.has, hst] at hclear
    obtain ⟨rfl, rfl, hbit⟩ := transact_clears_error hf hset hclear
    exact ⟨v, hline rfl, hbit⟩

end Transactions

/-! ### The error flags over a completion -/

/-- Every command's meaning ends in a completion, whatever the state. -/
theorem exec_completes (i : Instr) (s : State) : ∃ t size ovf, exec i s = .next t ∧ Completes s t size ovf := by
  cases i with
  | fft =>
    simp only [exec, execFft]
    split
    · exact ⟨_, _, _, rfl, completes_raise_sizeErr_finish s⟩
    · let w := transform s.rom (s.command .fft).exponent s.buf s.im
      exact ⟨_, _, _, rfl, completes_finish s w.buf w.im s.res false w.ovf⟩
  | bitrev =>
    simp only [exec, execBitrev]
    split
    · exact ⟨_, _, _, rfl, completes_raise_sizeErr_finish s⟩
    · exact ⟨_, _, _, rfl, completes_setBuf_finish s _⟩
  | mul => exact ⟨_, _, _, rfl, completes_setRes_raiseIf_ovf_finish s _ _⟩
  | romrd => exact ⟨_, _, _, rfl, completes_setRes_finish s _⟩
  | twid => exact ⟨_, _, _, rfl, completes_setRes_finish s _⟩
  | bfly => exact ⟨_, _, _, rfl, completes_setRes_raiseIf_ovf_finish s _ _⟩

theorem Completes.keeps_error {s t : State} {size ovf : Bool} {f : Flag} (h : Completes s t size ovf)
    (hf : f.isError = true) (hset : s.has f = true) : t.has f = true := by
  cases f with
  | busy => cases hf
  | done => cases hf
  | sizeErr => rw [h.sizeErr, hset, Bool.true_or]
  | ovf => rw [h.ovfFlag, hset, Bool.true_or]
  | cmdErr => rw [h.cmdErr, hset]
  | accErr => rw [h.accErr, hset]

theorem engineTurn_keeps_error {s t : State} {f : Flag} (h : engineTurn s = .next t) (hf : f.isError = true)
    (hset : s.has f = true) : t.has f = true := by
  rcases engineTurn_cases h with ⟨-, rfl⟩ | ⟨p, -, -, hexec⟩
  · exact hset
  · obtain ⟨t', size, ovf, ht', hcomp⟩ := exec_completes p.op s
    obtain rfl : t' = t := Host.Outcome.next.inj (ht'.symm.trans hexec)
    exact hcomp.keeps_error hf hset

/-! ### The step -/

/-- A step whose turn is no reset is the host's move or an engine turn. -/
theorem step_cases_of_not_reset {s t : State} (h : step s = .next t) (hturn : s.turns.head? ≠ some .reset) :
    ∃ ts, t = hostMove (s.setTurns ts) ∨ engineTurn (s.setTurns ts) = .next t := by
  unfold step at h
  split at h
  · next ts _ => exact ⟨ts, .inl (Host.Outcome.next.inj h).symm⟩
  · next ts _ => exact ⟨ts, .inr h⟩
  · next hts => simp [hts] at hturn
  · split at h
    · exact ⟨s.turns, .inr h⟩
    · exact ⟨s.turns, .inl (Host.Outcome.next.inj h).symm⟩

/-! ### The obligations -/

/-- Settles O8: a refused access raises ACC_ERR alone; any other leaves STATUS as it was or to the STATUS write,
acceptance or CMD_ERR, none of which sets ACC_ERR. -/
theorem refusedAccessesOnlySetAccErr : Obligations.RefusedAccessesOnlySetAccErr := by
  unfold Obligations.RefusedAccessesOnlySetAccErr
  refine fun s t => ⟨fun hb ht => ?refused, accErr_of_transact_not_refused⟩
  case refused =>
    rw [transact_of_refused hb ht]
    cases t.write <;> exact ⟨rfl, rfl⟩

/-- Settles O43: an engine turn keeps every error flag, and the host's move clears one only by a STATUS write. -/
theorem errorFlagsAreSticky : Obligations.ErrorFlagsAreSticky := by
  unfold Obligations.ErrorFlagsAreSticky
  intro s t f hf hstep hset hclear
  by_cases hturn : s.turns.head? = some .reset
  · exact .inl hturn
  · obtain ⟨ts, rfl | hengine⟩ := step_cases_of_not_reset hstep hturn
    · exact .inr (hostMove_clears_error (s := s.setTurns ts) hf hset hclear)
    · have hkept : t.has f = true := engineTurn_keeps_error hengine hf hset
      rw [hkept] at hclear
      cases hclear

end Sys2Proof.Machine
end

section
/-! PROOFS, shared by the whole machine: every meaning as one completion of what its latch computes (10_state.md R33,
70_reset_and_hazards.md R245). -/

namespace Sys2Proof.Machine

/-! ### A completion as the outputs of its latch -/

/-- What a meaning hands to its completion: BUF, IM and RES, and whether it raises SIZE_ERR or OVF. -/
structure Outputs where
  buf  : Memory
  im   : Memory
  res  : Results
  size : Bool
  ovf  : Bool

/-- Store the outputs, raise the flags they ask for, and complete. -/
def State.complete (s : State) (o : Outputs) : State :=
  (((((s.setBuf o.buf).setIm o.im).setRes o.res).raiseIf o.size .sizeErr).raiseIf o.ovf .ovf).finish

/-- The outputs of a command on a latch, as a function of the ROM, BUF, IM and RES alone (10_state.md R33: "it never
reads the live registers"). -/
def outputs (i : Instr) (p : Pending) (rom : SineRom) (buf im : Memory) (res : Results) : Outputs :=
  match i with
  | .fft =>
    if sizeGuarded p.exponent then ⟨buf, im, res, true, false⟩
    else
      let w := transform rom p.exponent buf im
      ⟨w.buf, w.im, res, false, w.ovf⟩
  | .bitrev =>
    if sizeGuarded p.exponent then ⟨buf, im, res, true, false⟩
    else ⟨bitRev p.exponent buf, im, res, false, false⟩
  | .mul =>
    let x := mulRound (int8 p.args.a) (int8 p.args.b)
    ⟨buf, im, { res with r0 := storedByte x }, false, outOfRange x⟩
  | .romrd => ⟨buf, im, { res with r0 := byteOf (romAt rom (romIndex p.args.a)) }, false, false⟩
  | .twid =>
    let w := twiddle rom (phaseIndex p.args.a)
    ⟨buf, im, { res with r0 := byteOf w.1, r1 := byteOf w.2 }, false, false⟩
  | .bfly =>
    let o := butterfly rom (int8 p.args.a) (int8 p.args.b) (int8 p.args.c) (int8 p.args.d) (phaseIndex p.args.e)
    ⟨buf, im, o.results, false, o.overflows⟩

/-- The outputs of a command on a state. -/
def State.outputsOf (s : State) (i : Instr) : Outputs :=
  Machine.outputs i (s.command i) s.rom s.buf s.im s.res

/-- Every meaning is the completion of its outputs. -/
theorem exec_eq_complete (i : Instr) (s : State) : exec i s = .next (s.complete (s.outputsOf i)) := by
  cases i with
  | fft =>
    by_cases h : sizeGuarded (s.command .fft).exponent = true
    · simp only [exec, execFft, State.outputsOf, outputs, if_pos h]; rfl
    · simp only [exec, execFft, State.outputsOf, outputs, if_neg h]; rfl
  | bitrev =>
    by_cases h : sizeGuarded (s.command .bitrev).exponent = true
    · simp only [exec, execBitrev, State.outputsOf, outputs, if_pos h]; rfl
    · simp only [exec, execBitrev, State.outputsOf, outputs, if_neg h]; rfl
  | mul => rfl
  | romrd => rfl
  | twid => rfl
  | bfly => rfl

theorem eq_complete_of_exec {i : Instr} {s t : State} (h : exec i s = .next t) : t = s.complete (s.outputsOf i) :=
  Host.Outcome.next.inj (h.symm.trans (exec_eq_complete i s))

section Complete

variable (s : State) (o : Outputs)

theorem completes_complete : Completes s (s.complete o) o.size o.ovf :=
  completes_finish s o.buf o.im o.res o.size o.ovf

theorem State.complete_busy : (s.complete o).busy = false := (completes_complete s o).busy

theorem State.complete_done : (s.complete o).has .done = true := (completes_complete s o).done

end Complete

/-! ### What each command may put out -/

/-- FFT and BITREV work for M in 1..8 (44_transform.md R181, 42_bitrev.md R141). -/
theorem not_sizeGuarded_iff {M : Nat} : ¬ sizeGuarded M = true ↔ 1 ≤ M ∧ M ≤ 8 := by
  rw [sizeGuarded_eq_true_iff]
  omega

section Bounds

variable {i : Instr} {p : Pending} {rom : SineRom} {buf im : Memory} {res : Results}

theorem not_size_and_ovf_of_outputs : ¬ ((outputs i p rom buf im res).size = true ∧
    (outputs i p rom buf im res).ovf = true) := by
  cases i with
  | fft => by_cases h : sizeGuarded p.exponent = true <;> simp [outputs, h]
  | bitrev => by_cases h : sizeGuarded p.exponent = true <;> simp [outputs, h]
  | mul => simp [outputs]
  | romrd => simp [outputs]
  | twid => simp [outputs]
  | bfly => simp [outputs]

/-- A completion keeps the canonical form of BUF and IM. -/
theorem outputs_wf (hb : buf.wf) (hi : im.wf) :
    (outputs i p rom buf im res).buf.wf ∧ (outputs i p rom buf im res).im.wf := by
  cases i with
  | fft =>
    by_cases h : sizeGuarded p.exponent = true
    · simpa [outputs, h] using ⟨hb, hi⟩
    · simpa [outputs, h, Work.wf] using transform_wf rom (not_sizeGuarded_iff.1 h).2 hb hi
  | bitrev =>
    by_cases h : sizeGuarded p.exponent = true
    · simpa [outputs, h] using ⟨hb, hi⟩
    · simpa [outputs, h] using ⟨bitRev_wf hb (not_sizeGuarded_iff.1 h).2, hi⟩
  | mul => exact ⟨hb, hi⟩
  | romrd => exact ⟨hb, hi⟩
  | twid => exact ⟨hb, hi⟩
  | bfly => exact ⟨hb, hi⟩

/-- RES is kept by FFT and BITREV (10_state.md R28). -/
theorem outputs_res_of_fft_or_bitrev (h : i = .fft ∨ i = .bitrev) : (outputs i p rom buf im res).res = res := by
  rcases h with rfl | rfl <;> by_cases h : sizeGuarded p.exponent = true <;> simp [outputs, h]

end Bounds

end Sys2Proof.Machine
end

section
/-! PROOFS, shared by the whole machine: the write of every class of the address map (20_memory.md R53), and what a host
move and a step can do, with the line and the turn named. -/

namespace Sys2Proof.Machine

section Writes

variable {a : HostAddr} {v : Byte} {s : State}

/-! ### The write of each class -/

theorem memWrite_buf_idle {i : Nat} (h : placeOf a = .buf i) (hb : s.busy = false) :
    memWrite a v s = s.setBuf (Memory.write s.buf i v) := by
  simp [memWrite, h, hb]

theorem memWrite_len_idle (h : placeOf a = .len) (hb : s.busy = false) :
    memWrite a v s = s.setLen (lenAfterWrite v) := by
  simp [memWrite, h, hb]

theorem memWrite_op_idle {k : Nat} (h : placeOf a = .op k) (hb : s.busy = false) :
    memWrite a v s = s.setOps (s.ops.put v k) := by
  simp [memWrite, h, hb]

theorem memWrite_status (h : placeOf a = .status) : memWrite a v s = s.setStatus (statusAfterWrite v s.status) := by
  simp [memWrite, h]

theorem memWrite_res {k : Nat} (h : placeOf a = .res k) : memWrite a v s = s := by simp [memWrite, h]

theorem memWrite_reserved (h : placeOf a = .reserved) : memWrite a v s = s := by simp [memWrite, h]

/-! ### What a write keeps, and the one write that makes each change -/

/-- No write reaches the ROM or RES (10_state.md R28, R31). -/
theorem memWrite_frame (a : HostAddr) (v : Byte) (s : State) :
    (memWrite a v s).rom = s.rom ∧ (memWrite a v s).res = s.res ∧ (memWrite a v s).turns = s.turns := by
  rcases memWrite_cases a v s with h | h | ⟨-, h⟩ | ⟨-, ⟨_, -, h⟩ | ⟨_, -, h⟩ | h | h | ⟨_, h⟩⟩ <;> simp [h]

/-- Busy, a write can change STATUS alone, and not BUSY. -/
theorem memWrite_busy (a : HostAddr) (v : Byte) (hb : s.busy = true) :
    ∃ st, memWrite a v s = s.setStatus st ∧ hasFlag .busy st = true := by
  rcases memWrite_cases a v s with h | h | ⟨-, h⟩ | ⟨hidle, -⟩
  · exact ⟨s.status, h, hb⟩
  · exact ⟨_, h, by simpa [hasFlag_statusAfterWrite, State.busy, State.has] using hb⟩
  · exact ⟨_, h, by simpa [State.busy, State.has] using hb⟩
  · simp [hb] at hidle

/-- BUSY rises by an accepted CMD write alone. -/
theorem memWrite_accepts (hb : s.busy = false) (h : (memWrite a v s).busy = true) :
    a = cmdAddr ∧ ∃ i, decodeByte v = .ok i ∧ memWrite a v s = accept i s := by
  have hkept {t : State} (ht : memWrite a v s = t) (hsame : t.busy = s.busy) : False := by
    rw [ht, hsame, hb] at h
    cases h
  cases hp : placeOf a with
  | buf i => exact (hkept (memWrite_buf_idle hp hb) rfl).elim
  | cmd =>
    obtain rfl : a = cmdAddr := BitVec.eq_of_toNat_eq (placeOf_cmd_iff.1 hp)
    rw [memWrite_cmd_idle s hb] at hkept ⊢
    by_cases hd : ∃ i, decodeByte v = .ok i
    · obtain ⟨i, hi⟩ := hd
      exact ⟨rfl, i, hi, decodeCommand_legal s hi⟩
    · exact (hkept (decodeCommand_illegal s hd) (by simp [State.busy, State.has])).elim
  | len => exact (hkept (memWrite_len_idle hp hb) rfl).elim
  | status =>
    exact (hkept (memWrite_status hp) (by simp [State.busy, State.has, hasFlag_statusAfterWrite])).elim
  | op k => exact (hkept (memWrite_op_idle hp hb) rfl).elim
  | res k => exact (hkept (memWrite_res hp) rfl).elim
  | reserved => exact (hkept (memWrite_reserved hp) rfl).elim

/-- A byte of BUF changes by an idle write to its address alone, and then holds the byte written. -/
theorem memWrite_changes_buf {i : Nat} (h : (memWrite a v s).bufByte i ≠ s.bufByte i) :
    s.busy = false ∧ placeOf a = .buf i ∧ (memWrite a v s).bufByte i = v := by
  rcases memWrite_cases a v s with e | e | ⟨-, e⟩ | ⟨hb, ⟨j, hj, e⟩ | ⟨_, -, e⟩ | e | e | ⟨_, e⟩⟩
  case inr.inr.inr.inl =>
    rw [e, State.bufByte, State.setBuf_buf] at h ⊢
    by_cases hji : j = i
    · subst hji
      exact ⟨hb, hj, bufRead_write_self _ _ _⟩
    · exact absurd (bufRead_write_other hji _ _) h
  all_goals
    rw [e] at h
    exact absurd rfl h

end Writes

/-! ### What a host move can do -/

/-- A move of the host's own, a refused read, or the write of the host's line. -/
theorem hostMove_by_line (s : State) : ∃ g, hostMove s = s.setHost g ∨
    (s.busy = true ∧ hostMove s = (s.raise .accErr).setHost g) ∨
    ∃ a v, s.HostWrites a v ∧ hostMove s = (memWrite a v s).setHost g := by
  have hread (a : HostAddr) (g : HostAgent) : (memRead a s).2.setHost g = s.setHost g ∨
      (s.busy = true ∧ (memRead a s).2.setHost g = (s.raise .accErr).setHost g) := by
    rcases memRead_state a s with h | ⟨hb, -, h⟩
    · exact .inl (by rw [h])
    · exact .inr ⟨hb, by rw [h]⟩
  unfold hostMove
  split
  · exact ⟨s.host, .inl rfl⟩
  · next t hline =>
    obtain ⟨_ | _, a, v⟩ := t
    · exact ⟨_, (hread a _).imp_right .inl⟩
    · exact ⟨_, .inr (.inr ⟨a, v, hline, rfl⟩)⟩
  · next a _ _ _ => exact ⟨_, (hread a _).imp_right .inl⟩

section HostMove

variable (s : State)

theorem hostMove_frame :
    (hostMove s).rom = s.rom ∧ (hostMove s).res = s.res ∧ (hostMove s).turns = s.turns := by
  obtain ⟨g, h | ⟨-, h⟩ | ⟨a, v, -, h⟩⟩ := hostMove_by_line s <;> rw [h]
  · exact ⟨rfl, rfl, rfl⟩
  · exact ⟨rfl, rfl, rfl⟩
  · exact memWrite_frame a v s

@[simp] theorem hostMove_rom : (hostMove s).rom = s.rom := (hostMove_frame s).1

@[simp] theorem hostMove_res : (hostMove s).res = s.res := (hostMove_frame s).2.1

@[simp] theorem hostMove_turns : (hostMove s).turns = s.turns := (hostMove_frame s).2.2

variable {s}

/-- While a command is in flight the host's move changes STATUS flags and the host alone. -/
theorem hostMove_of_busy (hb : s.busy = true) :
    ∃ st g, hostMove s = (s.setStatus st).setHost g ∧ hasFlag .busy st = true := by
  obtain ⟨g, h | ⟨-, h⟩ | ⟨a, v, -, h⟩⟩ := hostMove_by_line s
  · exact ⟨s.status, g, h, hb⟩
  · exact ⟨_, g, h, by simpa [State.busy, State.has] using hb⟩
  · obtain ⟨st, hst, hbusy⟩ := memWrite_busy a v hb
    exact ⟨st, g, hst ▸ h, hbusy⟩

end HostMove

/-! ### What a step can do, by its turn -/

/-- The state of a command latched as `p` after its completion, with the turns left over. -/
def State.completed (s : State) (p : Pending) (ts : List Turn) : State :=
  (s.setTurns ts).complete (outputs p.op p s.rom s.buf s.im s.res)

theorem completed_busy (s : State) (p : Pending) (ts : List Turn) : (s.completed p ts).busy = false :=
  State.complete_busy _ _

theorem completed_done (s : State) (p : Pending) (ts : List Turn) : (s.completed p ts).has .done = true :=
  State.complete_done _ _

theorem exec_of_pending {s : State} {p : Pending} (h : s.pending = some p) (ts : List Turn) :
    exec p.op (s.setTurns ts) = .next (s.completed p ts) := by
  rw [exec_eq_complete, State.completed, State.outputsOf, State.command, State.setTurns_pending, h]
  rfl

/-- A reset, the host's move, an engine turn with nothing to complete, or a completion. -/
theorem step_cases_by_turn {s t : State} (h : step s = .next t) : ∃ ts,
    (s.turns.head? = some .reset ∧ t = resetEngine (s.setTurns ts)) ∨
    t = hostMove (s.setTurns ts) ∨
    (s.busy = false ∧ t = s.setTurns ts) ∨
    ∃ p, s.busy = true ∧ s.pending = some p ∧ s.turns.head? ≠ some .host ∧ t = s.completed p ts := by
  have hengine {ts : List Turn} (he : engineTurn (s.setTurns ts) = .next t) :
      (s.busy = false ∧ t = s.setTurns ts) ∨ ∃ p, s.busy = true ∧ s.pending = some p ∧ t = s.completed p ts := by
    rcases engineTurn_cases he with hidle | ⟨p, hb, hp, hx⟩
    · exact .inl hidle
    · exact .inr ⟨p, hb, hp, Host.Outcome.next.inj (hx.symm.trans (exec_of_pending hp ts))⟩
  unfold step at h
  split at h
  · next ts _ => exact ⟨ts, .inr (.inl (Host.Outcome.next.inj h).symm)⟩
  · next ts hts =>
    rcases hengine h with hidle | ⟨p, hb, hp, ht⟩
    · exact ⟨ts, .inr (.inr (.inl hidle))⟩
    · exact ⟨ts, .inr (.inr (.inr ⟨p, hb, hp, by simp [hts], ht⟩))⟩
  · next ts hts => exact ⟨ts, .inl ⟨by simp [hts], (Host.Outcome.next.inj h).symm⟩⟩
  · next hts =>
    split at h
    · rcases hengine (ts := s.turns) h with hidle | ⟨p, hb, hp, ht⟩
      · exact ⟨s.turns, .inr (.inr (.inl hidle))⟩
      · exact ⟨s.turns, .inr (.inr (.inr ⟨p, hb, hp, by simp [hts], ht⟩))⟩
    · exact ⟨s.turns, .inr (.inl (Host.Outcome.next.inj h).symm)⟩

end Sys2Proof.Machine
end

section
/-! PROOFS of the invariant: each update that a step makes keeps it, so every step does and none stops (10_state.md R25,
R33; 20_memory.md R58; 60_exceptions.md R200). -/

namespace Sys2Proof.Machine

/-! ### The bytes that a reset leaves unspecified (70_reset_and_hazards.md R231, R232) -/

theorem lostExtent_of_abandoned {p : Pending} (hop : p.op = .fft ∨ p.op = .bitrev) (h1 : 1 ≤ p.m.toNat)
    (h8 : p.m.toNat ≤ 8) : lostExtent (some p) = 2 ^ p.m.toNat := by
  have hguard : ¬ sizeGuarded p.exponent = true := not_sizeGuarded_iff.2 ⟨h1, h8⟩
  exact if_pos ⟨hop, Bool.eq_false_of_not_eq_true hguard⟩

theorem lostExtent_of_not_abandoned {p : Pending}
    (h : ¬ (p.op = .fft ∨ p.op = .bitrev) ∨ p.m.toNat = 0 ∨ 9 ≤ p.m.toNat) : lostExtent (some p) = 0 := by
  refine if_neg fun ⟨hop, hguard⟩ => ?_
  rw [Pending.exponent, ← Bool.not_eq_true, sizeGuarded_eq_true_iff] at hguard
  exact h.elim (· hop) hguard

/-- A byte that a reset leaves unspecified is one of an abandoned FFT or BITREV that is not guarded. -/
theorem abandoned_of_lt_lostExtent {q : Option Pending} {a : Nat} (h : a < lostExtent q) :
    ∃ p, q = some p ∧ (p.op = .fft ∨ p.op = .bitrev) ∧ 1 ≤ p.m.toNat ∧ p.m.toNat ≤ 8 ∧ a < 2 ^ p.m.toNat := by
  cases q with
  | none => exact absurd h (Nat.not_lt_zero a)
  | some p =>
    by_cases hkept : ¬ (p.op = .fft ∨ p.op = .bitrev) ∨ p.m.toNat = 0 ∨ 9 ≤ p.m.toNat
    · rw [lostExtent_of_not_abandoned hkept] at h
      exact absurd h (Nat.not_lt_zero a)
    · obtain ⟨hop, hM⟩ := not_or.1 hkept
      have hrange : 1 ≤ p.m.toNat ∧ p.m.toNat ≤ 8 := by omega
      rw [lostExtent_of_abandoned (not_not.1 hop) hrange.1 hrange.2] at h
      exact ⟨p, rfl, not_not.1 hop, hrange.1, hrange.2, h⟩

theorem lostExtent_le (q : Option Pending) : lostExtent q ≤ 256 := by
  by_contra h
  obtain ⟨p, -, -, -, h8, ha⟩ := abandoned_of_lt_lostExtent (Nat.lt_of_not_le h)
  have hpow : 2 ^ p.m.toNat ≤ 2 ^ 8 := Nat.pow_le_pow_right (by decide) h8
  omega

theorem resetEngine_busy (s : State) : (resetEngine s).busy = false :=
  show hasFlag .busy 0#8 = false by decide

/-- LEN[7:4] is 0 after a write (10_state.md R23). -/
theorem lenAfterWrite_reserved (v : Byte) : (lenAfterWrite v).extractLsb' 4 4 = 0#4 := by
  revert v
  decide

namespace State.Inv

variable {s : State} (h : s.Inv)

include h

/-! ### The updates of a host move -/

theorem pending_of_idle (hb : s.busy = false) : s.pending = none := by
  rw [← Option.isNone_iff_eq_none, ← Option.isSome_eq_false_iff, ← h.busyIffPending, hb]

theorem setTurns (ts : List Turn) : (s.setTurns ts).Inv :=
  ⟨h.bufWf, h.imWf, h.lenReserved, h.statusReserved, h.busyIffPending, h.latched, h.busyNotDone, h.romAdmissible⟩

theorem setHost (g : HostAgent) : (s.setHost g).Inv :=
  ⟨h.bufWf, h.imWf, h.lenReserved, h.statusReserved, h.busyIffPending, h.latched, h.busyNotDone, h.romAdmissible⟩

theorem setBuf {m : Memory} (hm : m.wf) : (s.setBuf m).Inv :=
  ⟨hm, h.imWf, h.lenReserved, h.statusReserved, h.busyIffPending, h.latched, h.busyNotDone, h.romAdmissible⟩

/-- A STATUS that keeps BUSY and the reserved bits and does not set DONE. -/
theorem setStatus {st : Byte} (htop : statusTop st = statusTop s.status) (hbusy : hasFlag .busy st = s.busy)
    (hdone : hasFlag .done st = true → s.has .done = true) : (s.setStatus st).Inv where
  bufWf := h.bufWf
  imWf := h.imWf
  lenReserved := h.lenReserved
  statusReserved := htop.trans h.statusReserved
  busyIffPending := hbusy.trans h.busyIffPending
  latched := h.latched
  busyNotDone := fun ⟨hb, hd⟩ => h.busyNotDone ⟨hbusy.symm.trans hb, hdone hd⟩
  romAdmissible := h.romAdmissible

theorem raise {f : Flag} (hf : f.isError = true) : (s.raise f).Inv := by
  have hbusy : f ≠ .busy := by rintro rfl; cases hf
  have hdone : f ≠ .done := by rintro rfl; cases hf
  exact h.setStatus (statusTop_setFlag f _) (by simp [hbusy.symm, State.busy, State.has])
    (by simp [hdone.symm, State.has])

theorem setLen (hb : s.busy = false) {v : Byte} (hv : v.extractLsb' 4 4 = 0#4) : (s.setLen v).Inv where
  bufWf := h.bufWf
  imWf := h.imWf
  lenReserved := hv
  statusReserved := h.statusReserved
  busyIffPending := h.busyIffPending
  latched := fun p hp => by simp [h.pending_of_idle hb] at hp
  busyNotDone := h.busyNotDone
  romAdmissible := h.romAdmissible

theorem setOps (hb : s.busy = false) (o : Operands) : (s.setOps o).Inv where
  bufWf := h.bufWf
  imWf := h.imWf
  lenReserved := h.lenReserved
  statusReserved := h.statusReserved
  busyIffPending := h.busyIffPending
  latched := fun p hp => by simp [h.pending_of_idle hb] at hp
  busyNotDone := h.busyNotDone
  romAdmissible := h.romAdmissible

theorem accept (i : Instr) : (accept i s).Inv where
  bufWf := h.bufWf
  imWf := h.imWf
  lenReserved := h.lenReserved
  statusReserved := (statusTop_statusAfterAccept s.status).trans h.statusReserved
  busyIffPending := accept_busy s i
  latched := by rintro p ⟨⟩; rfl
  busyNotDone := by simp [State.has]
  romAdmissible := h.romAdmissible

/-! ### The host's move -/

theorem memWrite (a : HostAddr) (v : Byte) : (memWrite a v s).Inv := by
  rcases memWrite_cases a v s with e | e | ⟨-, e⟩ | ⟨hb, ⟨i, hi, e⟩ | ⟨i, -, e⟩ | e | e | ⟨k, e⟩⟩ <;> rw [e]
  · exact h
  · exact h.setStatus (statusTop_statusAfterWrite v _) (by simp [hasFlag_statusAfterWrite, State.busy, State.has])
      (by simp +contextual [hasFlag_statusAfterWrite, State.has])
  · exact h.raise rfl
  · exact h.setBuf (Memory.wf_write h.bufWf (placeOf_buf_lt hi) v)
  · exact h.accept i
  · exact h.raise rfl
  · exact h.setLen hb (lenAfterWrite_reserved v)
  · exact h.setOps hb _

theorem hostMove : (hostMove s).Inv := by
  obtain ⟨g, e | ⟨-, e⟩ | ⟨a, v, -, e⟩⟩ := hostMove_by_line s <;> rw [e]
  · exact h.setHost g
  · exact (h.raise rfl).setHost g
  · exact (h.memWrite a v).setHost g

/-! ### A completion and a reset -/

theorem completes {t : State} {size ovf : Bool} (hc : Completes s t size ovf) (hbuf : t.buf.wf) (him : t.im.wf) :
    t.Inv where
  bufWf := hbuf
  imWf := him
  lenReserved := hc.len ▸ h.lenReserved
  statusReserved := hc.reserved.trans h.statusReserved
  busyIffPending := by rw [State.busy, hc.busy, hc.pending]; rfl
  latched := by simp [hc.pending]
  busyNotDone := by simp [State.busy, hc.busy]
  romAdmissible := hc.rom ▸ h.romAdmissible

theorem completed (p : Pending) (ts : List Turn) : (s.completed p ts).Inv := by
  obtain ⟨hbuf, him⟩ := outputs_wf (i := p.op) (p := p) (rom := s.rom) (res := s.res) h.bufWf h.imWf
  exact (h.setTurns ts).completes (completes_complete _ _) hbuf him

theorem resetEngine : (resetEngine s).Inv where
  bufWf := loseBytes_wf h.bufWf (lostExtent_le s.pending) s.draws
  imWf := reset_memory_wf.2
  lenReserved := show (0#8).extractLsb' 4 4 = 0#4 by decide
  statusReserved := show statusTop 0#8 = 0#2 by decide
  busyIffPending := resetEngine_busy s
  latched := nofun
  busyNotDone := by simp [resetEngine_busy]
  romAdmissible := h.romAdmissible

end State.Inv

/-! ### The obligations -/

theorem sineRom_admissible : Config.sineRom.Admissible := by
  intro i j hij
  rw [sineRom_table, sineRom_table]
  exact sineRise_mono hij

/-- Settles O39: every register is 0, the stores are empty and the table is a running maximum. -/
theorem resetMeetsTheInvariant : Obligations.ResetMeetsTheInvariant where
  bufWf := reset_memory_wf.1
  imWf := reset_memory_wf.2
  lenReserved := rfl
  statusReserved := rfl
  busyIffPending := rfl
  latched := nofun
  busyNotDone := by decide
  romAdmissible := sineRom_admissible

/-- Settles O40: by who moves; each mover's updates keep the invariant. -/
theorem stepKeepsTheInvariant : Obligations.StepKeepsTheInvariant := by
  unfold Obligations.StepKeepsTheInvariant
  intro s t h hstep
  obtain ⟨ts, ⟨-, rfl⟩ | rfl | ⟨-, rfl⟩ | ⟨p, -, -, -, rfl⟩⟩ := step_cases_by_turn hstep
  · exact (h.setTurns ts).resetEngine
  · exact (h.setTurns ts).hostMove
  · exact h.setTurns ts
  · exact h.completed p ts

/-- Settles O41: the one state that stops an engine turn, BUSY = 1 with PENDING empty, does not meet the invariant. -/
theorem noStepStops : Obligations.NoStepStops := by
  unfold Obligations.NoStepStops
  intro s h
  have hengine (ts : List Turn) : ∃ t, engineTurn (s.setTurns ts) = .next t := by
    unfold engineTurn
    split
    · next hb =>
      have hsome : s.pending.isSome = true := h.busyIffPending.symm.trans hb
      obtain ⟨p, hp⟩ := Option.isSome_iff_exists.1 hsome
      exact ⟨_, by simpa [hp] using exec_of_pending hp ts⟩
    · exact ⟨_, rfl⟩
  unfold State.SafeStep step
  split
  · exact ⟨_, rfl⟩
  · exact hengine _
  · exact ⟨_, rfl⟩
  · split
    · exact hengine s.turns
    · exact ⟨_, rfl⟩

end Sys2Proof.Machine
end

section
/-! PROOFS of 43_butterfly.md: the ranges of a butterfly (R165), the phases of a pass (R168), the pairs of a pass and
what a list of butterflies leaves at each index, in whatever order (R169). -/

namespace Sys2Proof.Machine

/-! ### The ranges of a butterfly (43_butterfly.md R165, 41_multiply.md R126) -/

/-- Multiplying by a factor over 128 does not enlarge it beyond the factor's own bound. -/
theorem abs_mulRound_le {w x c : Int} (hw : |w| ≤ c) (hx : |x| ≤ 128) : |mulRound w x| ≤ c := by
  have hprod : |w * x| ≤ c * 128 := by
    rw [abs_mul]
    exact mul_le_mul hw hx (abs_nonneg x) ((abs_nonneg w).trans hw)
  rw [abs_le] at hprod ⊢
  rw [mulRound_eq]
  omega

theorem romAt_le_of_at64_le (r : SineRom) {c : Nat} (hc : 63 ≤ c) (h64 : r.at64.toNat ≤ c) (i : Nat) :
    romAt r i ≤ c := by
  by_cases hi : i < 64
  · exact (romAt_le_63 r hi).trans (by omega)
  · rw [romAt, dif_neg hi]
    exact Int.ofNat_le.2 h64

/-- Both components of a twiddle are bounded by what bounds the ROM, and one of the two by 63: index 64 is read for at
most one of them (40_twiddle.md R105). -/
theorem abs_twiddle_le (r : SineRom) {ph c : Nat} (h : ph < 128) (hc : 63 ≤ c) (h64 : r.at64.toNat ≤ c) :
    (|(twiddle r ph).1| ≤ c ∧ |(twiddle r ph).2| ≤ 63) ∨ (|(twiddle r ph).1| ≤ 63 ∧ |(twiddle r ph).2| ≤ c) := by
  have habs (i : Nat) : |romAt r i| ≤ c :=
    (abs_of_nonneg (romAt_nonneg r i)).trans_le (romAt_le_of_at64_le r hc h64 i)
  have habs63 {i : Nat} (hi : i < 64) : |romAt r i| ≤ 63 :=
    (abs_of_nonneg (romAt_nonneg r i)).trans_le (romAt_le_63 r hi)
  by_cases hq : ph < 64
  · rw [twiddle_of_lt r hq, abs_neg]
    exact .inl ⟨habs _, habs63 hq⟩
  · rw [twiddle_of_ge r (Nat.not_lt.1 hq), abs_neg, abs_neg]
    exact .inr ⟨habs63 (by omega), habs _⟩

/-- The halved top value and two products, of which one has a factor of at most 63. -/
theorem butterfly_outputs_range (r : SineRom) {ar ai br bi : Int} {ph c : Nat} (h : ph < 128) (hc : 63 ≤ c)
    (h64 : r.at64.toNat ≤ c) (har : -128 ≤ ar ∧ ar ≤ 127) (hai : -128 ≤ ai ∧ ai ≤ 127)
    (hbr : -128 ≤ br ∧ br ≤ 127) (hbi : -128 ≤ bi ∧ bi ≤ 127) {y : Int}
    (hy : y ∈ [(butterfly r ar ai br bi ph).topRe, (butterfly r ar ai br bi ph).topIm,
      (butterfly r ar ai br bi ph).botRe, (butterfly r ar ai br bi ph).botIm]) :
    -64 - (63 + c : Int) ≤ y ∧ y ≤ 63 + (63 + c : Int) := by
  have habr : |br| ≤ 128 := abs_le.2 (by omega)
  have habi : |bi| ≤ 128 := abs_le.2 (by omega)
  have hproducts {x z : Int} (hx : |x| ≤ 128) (hz : |z| ≤ 128) :
      |mulRound (twiddle r ph).1 x| + |mulRound (twiddle r ph).2 z| ≤ 63 + c := by
    rcases abs_twiddle_le r h hc h64 with ⟨h1, h2⟩ | ⟨h1, h2⟩
    · linarith [abs_mulRound_le h1 hx, abs_mulRound_le h2 hz]
    · linarith [abs_mulRound_le h1 hx, abs_mulRound_le h2 hz]
  have hre := (abs_sub _ _).trans (hproducts habr habi)
  have him := (abs_add_le _ _).trans (hproducts habi habr)
  rw [abs_le] at hre him
  simp only [butterfly, asr, pow_one, List.mem_cons, List.not_mem_nil, or_false] at hy
  rcases hy with rfl | rfl | rfl | rfl <;> omega

/-- Settles O31: each product from the twiddle's own bound, the outputs from the bound of 127, and of 64 where
SINE_AT_64 meets it, on the one component that reads index 64. -/
theorem butterflyRanges : Obligations.ButterflyRanges := by
  unfold Obligations.ButterflyRanges
  intro r ar ai br bi ph hph hin
  have h127 : r.at64.toNat ≤ 127 := by have := r.at64.isLt; omega
  refine ⟨fun x hx w hw => ?products, fun o ho => ?outputs⟩
  case products =>
    have hx128 := hin x (List.mem_cons_of_mem _ (List.mem_cons_of_mem _ hx))
    have hw127 : |w| ≤ 127 := by
      have htw := abs_twiddle_le r hph (by decide) h127
      simp only [List.mem_cons, List.not_mem_nil, or_false] at hw
      rcases hw with rfl | rfl <;> omega
    exact mulRound_range_of_abs_le hw127 (abs_le.2 (by omega))
  case outputs =>
    subst ho
    simp only [List.forall_mem_cons, List.not_mem_nil, false_implies, implies_true, and_true] at hin
    obtain ⟨har, hai, hbr, hbi⟩ := hin
    refine ⟨fun y hy => ?_, fun h64 y hy => ?_⟩
    · have := butterfly_outputs_range r hph (by decide) h127 har hai hbr hbi hy
      omega
    · have := butterfly_outputs_range r hph (by decide) h64 har hai hbr hbi hy
      omega

/-! ### The phases of a pass (43_butterfly.md R168) -/

theorem phase_lt {s b : Nat} (hs : s ≤ 7) (hb : b < 2 ^ s) : b * 2 ^ (7 - s) < 128 :=
  calc b * 2 ^ (7 - s)
    _ < 2 ^ s * 2 ^ (7 - s) := Nat.mul_lt_mul_of_pos_right hb (Nat.two_pow_pos _)
    _ = 128 := by rw [← Nat.pow_add, Nat.add_sub_cancel' hs]

theorem blockPhase_eq {s b : Nat} (hs : s ≤ 7) (hb : b < 2 ^ s) : blockPhase (7 - s) b = b * 2 ^ (7 - s) := by
  rw [blockPhase, Nat.shiftLeft_eq, Nat.mod_eq_of_lt (phase_lt hs hb)]

/-- Settles O34: the phase is below the half period before the mod. -/
theorem phaseStaysInTheHalfPeriod : Obligations.PhaseStaysInTheHalfPeriod :=
  fun _ _ hs hb => ⟨blockPhase_eq hs hb, phase_lt hs hb⟩

/-! ### The entries of the working state -/

/-- The complex entry at an index: a byte of BUF and a byte of IM. -/
def Work.entry (w : Work) (a : Nat) : Byte × Byte := (bufRead w.buf a, imRead w.im a)

/-- The butterfly of two entries. -/
def entryButterfly (r : SineRom) (x y : Byte × Byte) (ph : Nat) : BflyOut :=
  butterfly r (int8 x.1) (int8 x.2) (int8 y.1) (int8 y.2) ph

/-- The entry stored at the top position. -/
def BflyOut.top (o : BflyOut) : Byte × Byte := (storedByte o.topRe, storedByte o.topIm)

/-- The entry stored at the bottom position. -/
def BflyOut.bot (o : BflyOut) : Byte × Byte := (storedByte o.botRe, storedByte o.botIm)

section ButterflyAt

variable (r : SineRom) {l p a : Nat} (ph : Nat) (w : Work)

theorem entry_butterflyAt_bot : (butterflyAt r l ph p w).entry (p + l) =
    (entryButterfly r (w.entry p) (w.entry (p + l)) ph).bot := by
  simp [Work.entry, butterflyAt, entryButterfly, BflyOut.bot]

theorem entry_butterflyAt_top (hl : p ≠ p + l) : (butterflyAt r l ph p w).entry p =
    (entryButterfly r (w.entry p) (w.entry (p + l)) ph).top := by
  simp [Work.entry, butterflyAt, entryButterfly, BflyOut.top, bufRead_write_other hl.symm, imRead_write_other hl.symm]

theorem entry_butterflyAt_other (hp : a ≠ p) (hq : a ≠ p + l) : (butterflyAt r l ph p w).entry a = w.entry a := by
  simp [Work.entry, butterflyAt, bufRead_write_other hp.symm, bufRead_write_other hq.symm,
    imRead_write_other hp.symm, imRead_write_other hq.symm]

theorem ovf_butterflyAt : (butterflyAt r l ph p w).ovf =
    (w.ovf || (entryButterfly r (w.entry p) (w.entry (p + l)) ph).overflows) := rfl

end ButterflyAt

/-! ### A list of butterflies on distinct indices (43_butterfly.md R169) -/

/-- The indices that a list of pairs touches. -/
def touched (l : Nat) (pairs : List (Nat × Nat)) : List Nat := pairs.flatMap fun bp => [bp.2, bp.2 + l]

theorem touched_cons (l : Nat) (x : Nat × Nat) (pairs : List (Nat × Nat)) :
    touched l (x :: pairs) = x.2 :: (x.2 + l) :: touched l pairs := rfl

theorem mem_touched {l : Nat} {bp : Nat × Nat} {pairs : List (Nat × Nat)} (h : bp ∈ pairs) :
    bp.2 ∈ touched l pairs ∧ bp.2 + l ∈ touched l pairs :=
  ⟨List.mem_flatMap.2 ⟨bp, h, by simp⟩, List.mem_flatMap.2 ⟨bp, h, by simp⟩⟩

theorem exists_pair_of_mem_touched {l a : Nat} {pairs : List (Nat × Nat)} (h : a ∈ touched l pairs) :
    ∃ bp ∈ pairs, a = bp.2 ∨ a = bp.2 + l := by
  simpa [touched] using h

/-- The butterfly of a pair on the entries of `w`. -/
def pairButterfly (r : SineRom) (l k : Nat) (w : Work) (bp : Nat × Nat) : BflyOut :=
  entryButterfly r (w.entry bp.2) (w.entry (bp.2 + l)) (blockPhase k bp.1)

section RunPairs

variable (r : SineRom) {l : Nat} (k : Nat) {pairs : List (Nat × Nat)} (w : Work)

theorem entry_runPairs_of_notMem {a : Nat} (h : a ∉ touched l pairs) :
    (runPairs r l k pairs w).entry a = w.entry a := by
  induction pairs generalizing w with
  | nil => rfl
  | cons x pairs ih =>
    simp only [touched_cons, List.mem_cons, not_or] at h
    obtain ⟨hp, hq, hrest⟩ := h
    exact (ih _ hrest).trans (entry_butterflyAt_other r _ w hp hq)

/-- A butterfly leaves alone what a pair on other indices works on. -/
theorem pairButterfly_butterflyAt {x bp : Nat × Nat} (hnd : (touched l (x :: pairs)).Nodup) (hbp : bp ∈ pairs) :
    pairButterfly r l k (butterflyAt r l (blockPhase k x.1) x.2 w) bp = pairButterfly r l k w bp := by
  simp only [touched_cons, List.nodup_cons, List.mem_cons, not_or] at hnd
  obtain ⟨⟨-, hp⟩, hq, -⟩ := hnd
  obtain ⟨htop, hbot⟩ := mem_touched (l := l) hbp
  have hentry {a : Nat} (ha : a ∈ touched l pairs) :
      (butterflyAt r l (blockPhase k x.1) x.2 w).entry a = w.entry a :=
    entry_butterflyAt_other r _ w (fun h => hp (h ▸ ha)) (fun h => hq (h ▸ ha))
  rw [pairButterfly, hentry htop, hentry hbot, pairButterfly]

/-- Each pair's two indices end with the outputs of its butterfly on the entries before the list. -/
theorem entry_runPairs_of_mem (hnd : (touched l pairs).Nodup) {bp : Nat × Nat} (hbp : bp ∈ pairs) :
    (runPairs r l k pairs w).entry bp.2 = (pairButterfly r l k w bp).top ∧
      (runPairs r l k pairs w).entry (bp.2 + l) = (pairButterfly r l k w bp).bot := by
  induction pairs generalizing w with
  | nil => cases hbp
  | cons x pairs ih =>
    have hcons := hnd
    simp only [touched_cons, List.nodup_cons, List.mem_cons, not_or] at hcons
    obtain ⟨⟨hpq, hp⟩, hq, hrest⟩ := hcons
    rcases List.mem_cons.1 hbp with rfl | hbp
    · exact ⟨(entry_runPairs_of_notMem r k _ hp).trans (entry_butterflyAt_top r _ w hpq),
        (entry_runPairs_of_notMem r k _ hq).trans (entry_butterflyAt_bot r _ w)⟩
    · rw [← pairButterfly_butterflyAt r k w hnd hbp]
      exact ih _ hrest hbp

theorem ovf_runPairs (hnd : (touched l pairs).Nodup) : (runPairs r l k pairs w).ovf =
    (w.ovf || pairs.any fun bp => (pairButterfly r l k w bp).overflows) := by
  induction pairs generalizing w with
  | nil => simp [runPairs]
  | cons x pairs ih =>
    have hrest : (touched l pairs).Nodup := hnd.of_cons.of_cons
    have hsame : (pairs.any fun bp =>
          (pairButterfly r l k (butterflyAt r l (blockPhase k x.1) x.2 w) bp).overflows) =
        pairs.any fun bp => (pairButterfly r l k w bp).overflows := by
      rw [Bool.eq_iff_iff, List.any_eq_true, List.any_eq_true]
      exact exists_congr fun bp => and_congr_right fun hbp => by rw [pairButterfly_butterflyAt r k w hnd hbp]
    rw [List.any_cons, ← Bool.or_assoc, ← hsame]
    exact ih _ hrest

end RunPairs

/-! ### The pairs of a pass (43_butterfly.md R169) -/

theorem mem_passPairs_of_lt {N l b t : Nat} (hb : b < l) (ht : t < N / (2 * l)) :
    (b, b + t * (2 * l)) ∈ passPairs N l :=
  List.mem_flatMap.2 ⟨b, List.mem_range.2 hb, List.mem_map.2 ⟨t, List.mem_range.2 ht, rfl⟩⟩

section PassPairs

variable {N l : Nat}

theorem length_touched_passPairs (hl : 2 * l ∣ N) : (touched l (passPairs N l)).length = N := by
  have hlen : (touched l (passPairs N l)).length = l * (N / (2 * l)) * 2 := by
    simp [touched, passPairs, List.length_flatMap]
  rw [hlen, Nat.mul_right_comm, Nat.mul_comm l 2, Nat.mul_div_cancel' hl]

/-- An index is a top position in the first half of its block of 2l, and a bottom one in the second half. -/
theorem mem_touched_passPairs (hpos : 0 < l) (hl : 2 * l ∣ N) {a : Nat} (ha : a < N) :
    a ∈ touched l (passPairs N l) := by
  have ht : a / (2 * l) < N / (2 * l) := Nat.div_lt_div_of_lt_of_dvd hl ha
  have hr : a % (2 * l) < 2 * l := Nat.mod_lt a (by omega)
  have hsplit : a % (2 * l) + a / (2 * l) * (2 * l) = a := Nat.mod_add_div' a (2 * l)
  by_cases htop : a % (2 * l) < l
  · have := (mem_touched (l := l) (mem_passPairs_of_lt htop ht)).1
    rwa [hsplit] at this
  · have hb : a % (2 * l) - l < l := by omega
    have := (mem_touched (l := l) (mem_passPairs_of_lt hb ht)).2
    rwa [show a % (2 * l) - l + a / (2 * l) * (2 * l) + l = a by omega] at this

theorem touched_passPairs_perm (hpos : 0 < l) (hl : 2 * l ∣ N) : (touched l (passPairs N l)).Perm (List.range N) := by
  have hsub : List.range N ⊆ touched l (passPairs N l) :=
    fun a ha => mem_touched_passPairs hpos hl (List.mem_range.1 ha)
  have hlen : (touched l (passPairs N l)).length ≤ (List.range N).length := by
    rw [length_touched_passPairs hl, List.length_range]
  exact ((List.nodup_range.subperm hsub).perm_of_length_le hlen).symm

end PassPairs

theorem two_mul_pow_dvd {M s : Nat} (hs : s < M) : 2 * 2 ^ s ∣ 2 ^ M := by
  rw [← Nat.pow_succ']
  exact Nat.pow_dvd_pow 2 hs

/-- Settles O32: the list is as long as the range and holds every index of it. -/
theorem passPairsPartitionTheIndices : Obligations.PassPairsPartitionTheIndices :=
  fun _ s hs => touched_passPairs_perm (Nat.two_pow_pos s) (two_mul_pow_dvd hs)

/-- Two orders of pairs on distinct indices leave the same entries and the same overflow. -/
theorem runPairs_perm (r : SineRom) {l : Nat} (k : Nat) {pairs pairs' : List (Nat × Nat)} (w : Work)
    (hperm : pairs.Perm pairs') (hnd : (touched l pairs').Nodup) :
    (∀ a, (runPairs r l k pairs w).entry a = (runPairs r l k pairs' w).entry a) ∧
      (runPairs r l k pairs w).ovf = (runPairs r l k pairs' w).ovf := by
  have htouched : (touched l pairs).Perm (touched l pairs') := hperm.flatMap_right _
  have hnd' : (touched l pairs).Nodup := htouched.nodup_iff.2 hnd
  constructor
  · intro a
    by_cases ha : a ∈ touched l pairs'
    · obtain ⟨bp, hbp, hat⟩ := exists_pair_of_mem_touched ha
      obtain ⟨htop, hbot⟩ := entry_runPairs_of_mem r k w hnd hbp
      obtain ⟨htop', hbot'⟩ := entry_runPairs_of_mem r k w hnd' (hperm.mem_iff.2 hbp)
      rcases hat with rfl | rfl
      · rw [htop, htop']
      · rw [hbot, hbot']
    · rw [entry_runPairs_of_notMem r k w ha, entry_runPairs_of_notMem r k w (mt htouched.mem_iff.1 ha)]
  · rw [ovf_runPairs r k w hnd, ovf_runPairs r k w hnd', hperm.any_eq]

/-- Settles O33: the pairs of a pass touch distinct indices, so no butterfly works on what another one has stored. -/
theorem passOrderDoesNotMatter : Obligations.PassOrderDoesNotMatter := by
  unfold Obligations.PassOrderDoesNotMatter
  intro r M s pairs w hs _ hperm
  have hnd : (touched (2 ^ s) (passPairs (2 ^ M) (2 ^ s))).Nodup :=
    (touched_passPairs_perm (Nat.two_pow_pos s) (two_mul_pow_dvd hs)).nodup_iff.2 List.nodup_range
  obtain ⟨hentry, hovf⟩ := runPairs_perm r (7 - s) w hperm hnd
  exact ⟨fun a => Prod.ext_iff.1 (hentry a), hovf⟩

end Sys2Proof.Machine
end

section
/-! PROOFS of 42_bitrev.md: the permuter applied twice (R145), the reversal's low bit, and the index walk (R144). -/

namespace Sys2Proof.Machine

/-- Settles O27: below 2^M by the reversal being an involution, and from 2^M on nothing moves. -/
theorem bitRevTwiceRestores : Obligations.BitRevTwiceRestores := by
  unfold Obligations.BitRevTwiceRestores
  intro M m a
  by_cases ha : a < 2 ^ M
  · rw [bufRead_bitRev_of_lt ha, bufRead_bitRev_of_lt (revBits_lt M a), revBits_revBits ha]
  · rw [bufRead_bitRev_of_ge (Nat.not_lt.1 ha), bufRead_bitRev_of_ge (Nat.not_lt.1 ha)]

/-! ### The reversal of a number by its low bit -/

/-- The low bit of a number is the high bit of its reversal. -/
theorem revBits_bit (M : Nat) (b : Bool) (j : Nat) :
    revBits (M + 1) (Nat.bit b j) = b.toNat * 2 ^ M + revBits M j := by
  induction M generalizing b j with
  | zero => cases b <;> simp [revBits]
  | succ M ih =>
    rw [revBits_succ (M + 1), ih, Nat.testBit_bit_succ, revBits_succ M j, Nat.bit_val, Nat.bit_val, Nat.pow_succ]
    ring

theorem revBits_two_mul (M j : Nat) : revBits (M + 1) (2 * j) = revBits M j := by
  simpa using revBits_bit M false j

theorem revBits_two_mul_add_one (M j : Nat) : revBits (M + 1) (2 * j + 1) = 2 ^ M + revBits M j := by
  simpa using revBits_bit M true j

/-! ### The index walk (42_bitrev.md R144) -/

/-- A high bit in the counter and in the range alike does not change the stride. -/
theorem walkStride_add (K mr fuel l : Nat) (hK : 0 < K) :
    walkStride (K + K) (K + mr) fuel l = walkStride K mr fuel l := by
  induction fuel generalizing l with
  | zero => rfl
  | succ fuel ih =>
    have hiff : K + mr + l / 2 ≤ K + K - 1 ↔ mr + l / 2 ≤ K - 1 := by omega
    simp only [walkStride, hiff, ih]

/-- The walk's stride is a power of two below the range, and steps from one reversal to the next: it carries from the
top bit down, as counting carries from the low bit up. -/
theorem walkStride_revBits {M j : Nat} (hj : j + 1 < 2 ^ M) : ∃ l, walkStride (2 ^ M) (revBits M j) M (2 ^ M) = l ∧
    l ∣ 2 ^ M ∧ revBits M j % l + l = revBits M (j + 1) := by
  induction M generalizing j with
  | zero => simp at hj
  | succ M ih =>
    have hlt (i : Nat) := revBits_lt M i
    have hpow : 2 ^ (M + 1) = 2 ^ M + 2 ^ M := by rw [Nat.pow_succ]; omega
    have hhalf : 2 ^ (M + 1) / 2 = 2 ^ M := by omega
    obtain ⟨i, rfl | rfl⟩ := Nat.even_or_odd' j
    · refine ⟨2 ^ M, ?_, ⟨2, Nat.pow_succ 2 M⟩, ?_⟩
      · have := hlt i
        rw [revBits_two_mul, walkStride, hhalf, if_pos (by omega)]
      · rw [revBits_two_mul, revBits_two_mul_add_one, Nat.mod_eq_of_lt (hlt i), Nat.add_comm]
    · obtain ⟨l, hl, hdvd, hnext⟩ := ih (j := i) (by omega)
      have hmod : (2 ^ M + revBits M i) % l = revBits M i % l := by
        obtain ⟨c, hc⟩ := hdvd
        rw [hc, Nat.mul_add_mod]
      refine ⟨l, ?_, hdvd.trans ⟨2, Nat.pow_succ 2 M⟩, ?_⟩
      · rw [revBits_two_mul_add_one, walkStride, hhalf, if_neg (by omega), hpow,
          walkStride_add _ _ _ _ (Nat.two_pow_pos M), hl]
      · rw [revBits_two_mul_add_one, show 2 * i + 1 + 1 = 2 * (i + 1) by omega, revBits_two_mul, hmod,
          hnext]

theorem walkNext_revBits {M j : Nat} (hj : j + 1 < 2 ^ M) : walkNext M (revBits M j) = revBits M (j + 1) := by
  obtain ⟨l, rfl, -, hnext⟩ := walkStride_revBits hj
  exact hnext

theorem revBits_zero (M : Nat) : revBits M 0 = 0 := by simp [revBits]

/-- One turn of the walk: on to the next counter, and the swap that it says. -/
def walkTurn (M : Nat) (w : Nat × Memory) (p : Nat) : Nat × Memory :=
  let mr := walkNext M w.1
  (mr, if p < mr then swapBytes p mr w.2 else w.2)

/-- The walk's counter is the reversal of its index, so its turns are the permuter's. -/
theorem foldl_walkTurn (M : Nat) (m : Memory) {n : Nat} (hn : n < 2 ^ M) :
    (List.range' 1 n).foldl (walkTurn M) (0, m) = (revBits M n, (List.range' 1 n).foldl (revSwap M) m) := by
  induction n with
  | zero => simp [revBits_zero]
  | succ n ih =>
    rw [List.range'_1_concat, List.foldl_concat, List.foldl_concat, ih (by omega), walkTurn,
      walkNext_revBits (by omega), Nat.add_comm 1 n, revSwap]

theorem walkBitRev_eq_bitRev (M : Nat) (m : Memory) : walkBitRev M m = bitRev M m := by
  have hpos := Nat.two_pow_pos M
  have hrange : List.range (2 ^ M) = 0 :: List.range' 1 (2 ^ M - 1) := by
    rw [List.range_eq_range', ← Nat.succ_pred_eq_of_pos hpos]
    rfl
  have hfirst : revSwap M m 0 = m := by simp [revSwap, revBits_zero]
  calc walkBitRev M m
    _ = ((List.range' 1 (2 ^ M - 1)).foldl (walkTurn M) (0, m)).2 := rfl
    _ = (List.range' 1 (2 ^ M - 1)).foldl (revSwap M) m := by rw [foldl_walkTurn M m (by omega)]
    _ = bitRev M m := by rw [bitRev, hrange, List.foldl_cons, hfirst]

/-- Settles O28: the walk and the permuter make the same swaps, for every M. -/
theorem indexWalkIsThePermuter : Obligations.IndexWalkIsThePermuter :=
  fun M m _ _ _ => by rw [walkBitRev_eq_bitRev M m]

end Sys2Proof.Machine
end

section
/-! PROOFS, shared: what a loop of writes leaves at each address, and with it the reads of a cleared IM (44_transform.md
R183), of a packed BUF (R186) and of a BUF whose bytes a reset lost (70_reset_and_hazards.md R232). -/

namespace Sys2Proof.Machine

section WriteLoop

variable {α : Type} {f : α → Nat} (g : α → Byte) {l : List α} (m : Memory)

theorem lookup_foldl_write_of_notMem {a : Nat} (h : ∀ x ∈ l, f x ≠ a) :
    (l.foldl (fun m x => Memory.write m (f x) (g x)) m).lookup a = m.lookup a := by
  induction l generalizing m with
  | nil => rfl
  | cons x l ih =>
    rw [List.forall_mem_cons] at h
    obtain ⟨hx, hl⟩ := h
    rw [List.foldl_cons, ih _ hl, Memory.lookup_write, if_neg hx]

theorem lookup_foldl_write_of_mem (hf : Function.Injective f) {x : α} (hx : x ∈ l) :
    (l.foldl (fun m x => Memory.write m (f x) (g x)) m).lookup (f x) = some (g x) := by
  induction l using List.reverseRecOn with
  | nil => cases hx
  | append_singleton l y ih =>
    rw [List.foldl_concat, Memory.lookup_write]
    by_cases hy : f y = f x
    · rw [if_pos hy, hf hy]
    · have hne : x ≠ y := fun h => hy (h ▸ rfl)
      rw [if_neg hy]
      exact ih (by simpa [hne] using hx)

end WriteLoop

section Loops

variable {N n a : Nat} (m : Memory) (w : Work)

theorem imRead_initImag_of_lt (h : a < N) : imRead (initImag N m) a = 0#8 := by
  have hlookup : (initImag N m).lookup a = some 0#8 :=
    lookup_foldl_write_of_mem (f := id) (fun _ => 0#8) m Function.injective_id (List.mem_range.2 h)
  rw [imRead, hlookup, Option.getD_some]

theorem imRead_initImag_of_ge (h : N ≤ a) : imRead (initImag N m) a = imRead m a := by
  have hlookup : (initImag N m).lookup a = m.lookup a :=
    lookup_foldl_write_of_notMem (f := id) (fun _ => 0#8) m fun x hx => by
      have := List.mem_range.1 hx
      simp only [id_eq]
      omega
  rw [imRead, hlookup, imRead]

theorem bufRead_loseBytes_of_lt (draws : Nat) (h : a < n) :
    bufRead (loseBytes n draws m) a = Config.lostByte (draws + a) := by
  have hlookup : (loseBytes n draws m).lookup a = some (Config.lostByte (draws + a)) :=
    lookup_foldl_write_of_mem (f := id) (fun i => Config.lostByte (draws + i)) m Function.injective_id
      (List.mem_range.2 h)
  rw [bufRead, hlookup, Option.getD_some]

theorem bufRead_loseBytes_of_ge (draws : Nat) (h : n ≤ a) : bufRead (loseBytes n draws m) a = bufRead m a := by
  have hlookup : (loseBytes n draws m).lookup a = m.lookup a :=
    lookup_foldl_write_of_notMem (f := id) (fun i => Config.lostByte (draws + i)) m fun x hx => by
      have := List.mem_range.1 hx
      simp only [id_eq]
      omega
  rw [bufRead, hlookup, bufRead]

/-- The upper half of a packed BUF is the lower half of IM. -/
theorem bufRead_pack_upper (h : a < N / 2) : bufRead (pack N w).buf (N / 2 + a) = imRead w.im a := by
  have hlookup : (pack N w).buf.lookup (N / 2 + a) = some (imRead w.im a) :=
    lookup_foldl_write_of_mem (f := (N / 2 + ·)) (fun t => imRead w.im t) w.buf (add_right_injective _)
      (List.mem_range.2 h)
  rw [bufRead, hlookup, Option.getD_some]

theorem bufRead_pack_other (h : a < N / 2 ∨ N ≤ a) : bufRead (pack N w).buf a = bufRead w.buf a := by
  have hlookup : (pack N w).buf.lookup a = w.buf.lookup a :=
    lookup_foldl_write_of_notMem (f := (N / 2 + ·)) (fun t => imRead w.im t) w.buf fun x hx => by
      have := List.mem_range.1 hx
      omega
  rw [bufRead, hlookup, bufRead]

end Loops

end Sys2Proof.Machine
end

section
/-! PROOFS of 44_transform.md: the entries of the stage loop, which are those of the recursive transform (R182-R187),
its frame, the all-zero input, and that it depends on M, BUF[0..N-1] and the ROM alone (R189). -/

namespace Sys2Proof.Machine

/-! ### One pass, by block and position -/

section Pass

variable (r : SineRom) {M s : Nat} (k : Nat) (w : Work)

theorem nodup_touched_passPairs (hs : s < M) : (touched (2 ^ s) (passPairs (2 ^ M) (2 ^ s))).Nodup :=
  (touched_passPairs_perm (Nat.two_pow_pos s) (two_mul_pow_dvd hs)).nodup_iff.2 List.nodup_range

theorem entry_runPass_of_ge (hs : s < M) {a : Nat} (ha : 2 ^ M ≤ a) :
    (runPass r (2 ^ M) (2 ^ s) k w).entry a = w.entry a := by
  have hperm := touched_passPairs_perm (Nat.two_pow_pos s) (two_mul_pow_dvd hs)
  exact entry_runPairs_of_notMem r k w fun hmem => Nat.not_lt.2 ha (List.mem_range.1 (hperm.mem_iff.1 hmem))

/-- Position `i` of the first and of the second half of block `j`, which the pass joins out of two blocks. -/
theorem entry_runPass (hs : s < M) {i j : Nat} (hi : i < 2 ^ s) (hj : j < 2 ^ (M - (s + 1))) :
    (runPass r (2 ^ M) (2 ^ s) k w).entry (j * 2 ^ (s + 1) + i) =
        (entryButterfly r (w.entry (2 * j * 2 ^ s + i)) (w.entry ((2 * j + 1) * 2 ^ s + i)) (blockPhase k i)).top ∧
      (runPass r (2 ^ M) (2 ^ s) k w).entry (j * 2 ^ (s + 1) + (2 ^ s + i)) =
        (entryButterfly r (w.entry (2 * j * 2 ^ s + i)) (w.entry ((2 * j + 1) * 2 ^ s + i)) (blockPhase k i)).bot := by
  have hblocks : j < 2 ^ M / (2 * 2 ^ s) := by
    rwa [← Nat.pow_succ', Nat.pow_div hs (by decide)]
  have hpair := entry_runPairs_of_mem r k w (nodup_touched_passPairs hs) (mem_passPairs_of_lt hi hblocks)
  rw [pairButterfly] at hpair
  rw [show 2 * j * 2 ^ s + i = i + j * (2 * 2 ^ s) by ring,
    show (2 * j + 1) * 2 ^ s + i = i + j * (2 * 2 ^ s) + 2 ^ s by ring,
    show j * 2 ^ (s + 1) + i = i + j * (2 * 2 ^ s) by ring,
    show j * 2 ^ (s + 1) + (2 ^ s + i) = i + j * (2 * 2 ^ s) + 2 ^ s by ring]
  exact hpair

end Pass

/-! ### The recursive transform -/

/-- The joining step of the recursion, in the entries' terms. -/
theorem ditRec_succ (r : SineRom) (m : Nat) (x : Nat → Byte × Byte) {i : Nat} (hi : i < 2 ^ m) :
    ditRec r (m + 1) x i = (entryButterfly r (ditRec r m (fun n => x (2 * n)) i)
        (ditRec r m (fun n => x (2 * n + 1)) i) (i * 2 ^ (7 - m))).top ∧
      ditRec r (m + 1) x (2 ^ m + i) = (entryButterfly r (ditRec r m (fun n => x (2 * n)) i)
        (ditRec r m (fun n => x (2 * n + 1)) i) (i * 2 ^ (7 - m))).bot := by
  constructor
  · simp only [ditRec, Nat.mod_eq_of_lt hi, if_pos hi]
    rfl
  · simp only [ditRec, Nat.add_mod_left, Nat.mod_eq_of_lt hi, if_neg (Nat.not_lt.2 (Nat.le_add_right _ i))]
    rfl

/-- The first `n` passes of a stage loop of `M` passes. -/
def passes (r : SineRom) (M n : Nat) (w : Work) : Work :=
  (List.range n).foldl (fun w s => runPass r (2 ^ M) (2 ^ s) (7 - s) w) w

theorem passes_succ (r : SineRom) (M n : Nat) (w : Work) :
    passes r M (n + 1) w = runPass r (2 ^ M) (2 ^ n) (7 - n) (passes r M n w) := by
  rw [passes, List.range_succ, List.foldl_concat, passes]

theorem stages_eq_passes (r : SineRom) (M : Nat) (w : Work) : stages r M w = passes r M M w := rfl

/-- The samples of block `j` after `n` passes: every 2^(M-n)-th one, from the reversal of the block's number on. -/
def blockSamples (M n j : Nat) (x : Nat → Byte × Byte) (t : Nat) : Byte × Byte :=
  x (t * 2 ^ (M - n) + revBits (M - n) j)

theorem blockSamples_even_odd {M n : Nat} (hn : n < M) (j : Nat) (x : Nat → Byte × Byte) :
    (fun t => blockSamples M (n + 1) j x (2 * t)) = blockSamples M n (2 * j) x ∧
      (fun t => blockSamples M (n + 1) j x (2 * t + 1)) = blockSamples M n (2 * j + 1) x := by
  obtain ⟨K, hK⟩ := Nat.exists_eq_add_of_lt hn
  have hK1 : M - n = K + 1 := by omega
  have hK2 : M - (n + 1) = K := by omega
  constructor <;> funext t
  · rw [blockSamples, blockSamples, hK1, hK2, revBits_two_mul]
    congr 1
    ring
  · rw [blockSamples, blockSamples, hK1, hK2, revBits_two_mul_add_one]
    congr 1
    ring

/-- The loop's invariant: after `n` passes each block of 2^n entries holds the recursive transform of its samples. -/
theorem entry_passes (r : SineRom) {M : Nat} (hM : M ≤ 8) {w : Work} {x : Nat → Byte × Byte}
    (hw : ∀ a < 2 ^ M, w.entry a = x (revBits M a)) {n : Nat} (hn : n ≤ M) {i j : Nat} (hi : i < 2 ^ n)
    (hj : j < 2 ^ (M - n)) :
    (passes r M n w).entry (j * 2 ^ n + i) = ditRec r n (blockSamples M n j x) i := by
  induction n generalizing i j with
  | zero =>
    obtain rfl : i = 0 := by simpa using hi
    simp only [Nat.sub_zero] at hj
    simpa [passes, ditRec, blockSamples] using hw j hj
  | succ n ih =>
    obtain ⟨heven, hodd⟩ := blockSamples_even_odd hn j x
    have hpow : 2 ^ (M - n) = 2 * 2 ^ (M - (n + 1)) := by
      rw [← Nat.pow_succ', show M - n = (M - (n + 1)).succ by omega]
    have hpos {i' : Nat} (hi' : i' < 2 ^ n) :
        (passes r M (n + 1) w).entry (j * 2 ^ (n + 1) + i') = ditRec r (n + 1) (blockSamples M (n + 1) j x) i' ∧
        (passes r M (n + 1) w).entry (j * 2 ^ (n + 1) + (2 ^ n + i')) =
          ditRec r (n + 1) (blockSamples M (n + 1) j x) (2 ^ n + i') := by
      obtain ⟨htop, hbot⟩ := entry_runPass r (7 - n) (passes r M n w) hn hi' hj
      obtain ⟨hrecTop, hrecBot⟩ := ditRec_succ r n (blockSamples M (n + 1) j x) hi'
      rw [passes_succ, htop, hbot, hrecTop, hrecBot, heven, hodd, blockPhase_eq (by omega) hi',
        ih (by omega) hi' (by omega), ih (by omega) hi' (by omega)]
      exact ⟨rfl, rfl⟩
    by_cases hhalf : i < 2 ^ n
    · exact (hpos hhalf).1
    · obtain ⟨i', rfl⟩ := Nat.exists_eq_add_of_le (Nat.not_lt.1 hhalf)
      exact (hpos (by rw [Nat.pow_succ] at hi; omega)).2

/-- After all passes there is one block, of the samples in their own order. -/
theorem entry_stages (r : SineRom) {M : Nat} (hM : M ≤ 8) {w : Work} {x : Nat → Byte × Byte}
    (hw : ∀ a < 2 ^ M, w.entry a = x (revBits M a)) {i : Nat} (hi : i < 2 ^ M) :
    (stages r M w).entry i = ditRec r M x i := by
  have hsamples : blockSamples M M 0 x = x := by
    funext t
    simp [blockSamples, revBits_zero]
  simpa [stages_eq_passes, hsamples] using entry_passes r hM hw (Nat.le_refl M) hi (j := 0) (by simp)

theorem entry_stages_of_ge (r : SineRom) (M : Nat) (w : Work) {a : Nat} (ha : 2 ^ M ≤ a) :
    (stages r M w).entry a = w.entry a :=
  List.foldlRecOn (motive := fun v : Work => v.entry a = w.entry a) _ _ rfl fun _ hv _ hs =>
    (entry_runPass_of_ge r _ _ (List.mem_range.1 hs) ha).trans hv

/-! ### What stage 3 starts from -/

theorem entry_stageInput (M : Nat) (buf im : Memory) {a : Nat} (ha : a < 2 ^ M) :
    (stageInput M buf im).entry a = (bufRead buf (revBits M a), 0#8) := by
  rw [Work.entry, stageInput, bufRead_bitRev_of_lt ha, imRead_initImag_of_lt im ha]

theorem entry_stageInput_of_ge (M : Nat) (buf im : Memory) {a : Nat} (ha : 2 ^ M ≤ a) :
    (stageInput M buf im).entry a = (bufRead buf a, imRead im a) := by
  rw [Work.entry, stageInput, bufRead_bitRev_of_ge ha, imRead_initImag_of_ge im ha]

/-- The transform leaves every byte of BUF and IM from 2^M on as it was. -/
theorem transform_keeps (r : SineRom) {M : Nat} (buf im : Memory) {a : Nat} (ha : 2 ^ M ≤ a) :
    bufRead (transform r M buf im).buf a = bufRead buf a ∧ imRead (transform r M buf im).im a = imRead im a := by
  have hentry : (stages r M (stageInput M buf im)).entry a = (bufRead buf a, imRead im a) :=
    (entry_stages_of_ge r M _ ha).trans (entry_stageInput_of_ge M buf im ha)
  obtain ⟨hbuf, him⟩ := Prod.ext_iff.1 hentry
  exact ⟨(bufRead_pack_other _ (.inr ha)).trans hbuf, him⟩

/-! ### FFT at completion, on the latched exponent -/

/-- Twice the half of the length is the length. -/
theorem half_add_half {M : Nat} (h1 : 1 ≤ M) : 2 ^ M / 2 + 2 ^ M / 2 = 2 ^ M := by
  obtain ⟨n, rfl⟩ := Nat.exists_eq_add_of_le' h1
  rw [Nat.pow_succ]
  omega

/-- The state after an FFT that is not guarded. -/
def State.transformed (s : State) (M : Nat) : State :=
  let w := transform s.rom M s.buf s.im
  s.complete ⟨w.buf, w.im, s.res, false, w.ovf⟩

theorem exec_fft_of_not_guarded {s : State} {p : Pending} (h : s.Holds .fft p) (h1 : 1 ≤ p.m.toNat)
    (h8 : p.m.toNat ≤ 8) : exec .fft s = .next (s.transformed p.m.toNat) := by
  simp only [exec, execFft, h.command_eq, Pending.exponent, if_neg (not_sizeGuarded_iff.2 ⟨h1, h8⟩)]
  rfl

section Transformed

variable (s : State) {M : Nat}

theorem transformed_bufByte_lower {i : Nat} (hi : i < 2 ^ M / 2) : (s.transformed M).bufByte i =
    ((stages s.rom M (stageInput M s.buf s.im)).entry i).1 :=
  bufRead_pack_other _ (.inl hi)

theorem transformed_bufByte_upper {i : Nat} (hi : i < 2 ^ M / 2) : (s.transformed M).bufByte (2 ^ M / 2 + i) =
    ((stages s.rom M (stageInput M s.buf s.im)).entry i).2 :=
  bufRead_pack_upper _ hi

theorem transformed_keeps {a : Nat} (ha : 2 ^ M ≤ a) :
    (s.transformed M).bufByte a = s.bufByte a ∧ (s.transformed M).imAt a = s.imAt a :=
  transform_keeps s.rom s.buf s.im ha

theorem transformed_completes :
    Completes s (s.transformed M) false (stages s.rom M (stageInput M s.buf s.im)).ovf :=
  completes_complete s _

end Transformed

/-- Settles O22: the packed halves and the frame of the stage loop. -/
theorem fftPacksTheStagesResult : Obligations.FftPacksTheStagesResult := by
  unfold Obligations.FftPacksTheStagesResult
  refine ⟨acceptedAs_of_decodeByte (by decide), ?_⟩
  rintro s p _ _ _ hp rfl h1 h8 rfl rfl
  exact ⟨_, exec_fft_of_not_guarded hp h1 h8,
    fun i hi => ⟨transformed_bufByte_lower s hi, transformed_bufByte_upper s hi⟩,
    fun a ha => transformed_keeps s ha, rfl, transformed_completes s⟩

/-- Settles O23: the stage loop's entries on the reversed samples are the recursion's, and packing reads them off. -/
theorem fftRefinesRecursiveDit : Obligations.FftRefinesRecursiveDit := by
  unfold Obligations.FftRefinesRecursiveDit
  rintro s p _ _ hp rfl h1 h8 rfl
  refine ⟨_, exec_fft_of_not_guarded hp h1 h8, fun i hi => ?_⟩
  have hentry := entry_stages s.rom h8 (x := fun j => (s.bufByte j, 0x00#8))
    (fun a ha => entry_stageInput _ s.buf s.im ha) (i := i) (by omega)
  rw [transformed_bufByte_lower s hi, transformed_bufByte_upper s hi, hentry]
  exact ⟨rfl, rfl⟩

/-! ### The all-zero input -/

/-- Every entry of the transform is 0, and no store has overflowed. -/
def Work.Zero (M : Nat) (w : Work) : Prop := (∀ a < 2 ^ M, w.entry a = (0#8, 0#8)) ∧ w.ovf = false

theorem butterfly_zero (r : SineRom) (ph : Nat) : butterfly r 0 0 0 0 ph = ⟨0, 0, 0, 0⟩ := by
  simp [butterfly, mulRound_eq, asr]

theorem Work.Zero.butterflyAt {M : Nat} {w : Work} (h : w.Zero M) (r : SineRom) {l p : Nat} (ph : Nat)
    (hp : p + l < 2 ^ M) : (butterflyAt r l ph p w).Zero M := by
  obtain ⟨hentry, hovf⟩ := h
  have hout : entryButterfly r (w.entry p) (w.entry (p + l)) ph = ⟨0, 0, 0, 0⟩ := by
    rw [hentry p (by omega), hentry _ hp, entryButterfly, int8_zero, butterfly_zero]
  refine ⟨fun a ha => ?_, by rw [ovf_butterflyAt, hout, hovf]; rfl⟩
  by_cases hbot : a = p + l
  · rw [hbot, entry_butterflyAt_bot, hout]
    rfl
  · by_cases htop : a = p
    · rw [htop, entry_butterflyAt_top r ph w (htop ▸ hbot), hout]
      rfl
    · rw [entry_butterflyAt_other r ph w htop hbot, hentry a ha]

theorem Work.Zero.stages {M : Nat} {w : Work} (h : w.Zero M) (r : SineRom) : (stages r M w).Zero M :=
  List.foldlRecOn (motive := Work.Zero M) _ _ h fun _ hpass _ _ =>
    List.foldlRecOn (motive := Work.Zero M) _ _ hpass fun _ hpair _ hbp =>
      hpair.butterflyAt r _ (mem_passPairs hbp).2

/-- Settles O24: the permuted BUF and the cleared IM are zero, and a butterfly of zeros stores zeros. -/
theorem fftOfZeroIsZero : Obligations.FftOfZeroIsZero := by
  unfold Obligations.FftOfZeroIsZero
  intro s p hp h1 h8 hzero
  have hinput : (stageInput p.m.toNat s.buf s.im).Zero p.m.toNat := by
    refine ⟨fun a ha => ?_, rfl⟩
    rw [entry_stageInput _ s.buf s.im ha, ← State.bufByte, hzero _ (revBits_lt _ a)]
  obtain ⟨hentry, hovf⟩ := hinput.stages s.rom
  refine ⟨_, exec_fft_of_not_guarded hp h1 h8, fun i hi => ?bytes, ?overflow⟩
  case bytes =>
    have hhalf := half_add_half h1
    by_cases hlower : i < 2 ^ p.m.toNat / 2
    · rw [transformed_bufByte_lower s hlower, hentry i hi]
    · obtain ⟨j, rfl⟩ := Nat.exists_eq_add_of_le (Nat.not_lt.1 hlower)
      rw [transformed_bufByte_upper s (by omega), hentry j (by omega)]
  case overflow => rw [(transformed_completes s).ovfFlag, hovf, Bool.or_false]

/-! ### What the transform depends on (44_transform.md R189) -/

/-- A relation of buffers that the transform's accesses below `N` cannot tell apart: related buffers read alike there,
and equal writes keep the relation. -/
structure AlikeBelow (N : Nat) (B : Memory → Memory → Prop) : Prop where
  read  : ∀ {m₁ m₂ : Memory}, B m₁ m₂ → ∀ a < N, bufRead m₁ a = bufRead m₂ a
  write : ∀ {m₁ m₂ : Memory}, B m₁ m₂ → ∀ (a : Nat) (v : Byte), B (Memory.write m₁ a v) (Memory.write m₂ a v)

theorem alikeBelow_eq (N : Nat) : AlikeBelow N Eq where
  read := by rintro _ _ rfl _ _; rfl
  write := by rintro _ _ rfl _ _; rfl

theorem alikeBelow_reads (N : Nat) : AlikeBelow N fun m₁ m₂ => ∀ a < N, bufRead m₁ a = bufRead m₂ a where
  read := id
  write := fun h a v b hb => by rw [bufRead_write, bufRead_write, h b hb]

/-- Related buffers, the same IM below `N`, and the same overflow. -/
structure Work.Alike (N : Nat) (B : Memory → Memory → Prop) (w₁ w₂ : Work) : Prop where
  buf : B w₁.buf w₂.buf
  im  : ∀ a < N, imRead w₁.im a = imRead w₂.im a
  ovf : w₁.ovf = w₂.ovf

section Alike

variable {N : Nat} {B : Memory → Memory → Prop} (hB : AlikeBelow N B)

include hB

theorem bitRev_alike {M : Nat} (hN : N = 2 ^ M) {m₁ m₂ : Memory} (h : B m₁ m₂) : B (bitRev M m₁) (bitRev M m₂) := by
  refine List.foldl_rel h fun p hp m m' hm => ?_
  unfold revSwap
  split
  · have hq := revBits_lt M p
    rw [swapBytes, swapBytes, hB.read hm p (hN ▸ List.mem_range.1 hp), hB.read hm (revBits M p) (hN ▸ hq)]
    exact hB.write (hB.write hm _ _) _ _
  · exact hm

theorem Work.Alike.butterflyAt {w₁ w₂ : Work} (h : w₁.Alike N B w₂) (r : SineRom) {l p : Nat} (ph : Nat)
    (hp : p + l < N) : (butterflyAt r l ph p w₁).Alike N B (butterflyAt r l ph p w₂) := by
  have hp' : p < N := by omega
  have hbuf := hB.read h.buf
  simp only [Machine.butterflyAt]
  rw [hbuf p hp', hbuf _ hp, h.im p hp', h.im _ hp, h.ovf]
  exact ⟨hB.write (hB.write h.buf _ _) _ _, fun a ha => by simp only [imRead_write, h.im a ha], rfl⟩

theorem Work.Alike.stages {M : Nat} (hN : N = 2 ^ M) {w₁ w₂ : Work} (h : w₁.Alike N B w₂) (r : SineRom) :
    (stages r M w₁).Alike N B (stages r M w₂) :=
  List.foldl_rel h fun _ _ _ _ hpass =>
    List.foldl_rel hpass fun _ hbp _ _ hpair => hpair.butterflyAt hB r _ (hN ▸ (mem_passPairs hbp).2)

/-- The transform's BUF and overflow depend on BUF up to the relation, and not on IM. -/
theorem transform_alike (r : SineRom) {M : Nat} (hN : N = 2 ^ M) {buf₁ buf₂ : Memory} (h : B buf₁ buf₂)
    (im₁ im₂ : Memory) : B (transform r M buf₁ im₁).buf (transform r M buf₂ im₂).buf ∧
      (transform r M buf₁ im₁).ovf = (transform r M buf₂ im₂).ovf := by
  subst hN
  have him : ∀ a < 2 ^ M, imRead (initImag (2 ^ M) im₁) a = imRead (initImag (2 ^ M) im₂) a :=
    fun a ha => by rw [imRead_initImag_of_lt im₁ ha, imRead_initImag_of_lt im₂ ha]
  have hinput : (stageInput M buf₁ im₁).Alike (2 ^ M) B (stageInput M buf₂ im₂) := ⟨bitRev_alike hB rfl h, him, rfl⟩
  have hstages := hinput.stages hB rfl r
  refine ⟨List.foldl_rel hstages.buf fun t ht m m' hm => ?_, hstages.ovf⟩
  have ht' := List.mem_range.1 ht
  rw [hstages.im t (by omega)]
  exact hB.write hm _ _

end Alike

/-- Settles O25: the transform cannot tell apart two buffers that read alike below 2^M. -/
theorem fftDependsOnItsInputsAlone : Obligations.FftDependsOnItsInputsAlone := by
  unfold Obligations.FftDependsOnItsInputsAlone
  intro s₁ s₂ p₁ p₂ hp₁ hp₂ hm hrom hbytes
  by_cases hguard : sizeGuarded p₁.m.toNat = true
  · have hc₁ := completes_raise_sizeErr_finish s₁
    have hc₂ := completes_raise_sizeErr_finish s₂
    exact ⟨_, _, exec_fft_of_guarded hp₁ hguard, exec_fft_of_guarded hp₂ (hm ▸ hguard), hbytes,
      fun hovf => by rw [hc₁.ovfFlag, hc₂.ovfFlag, hovf]⟩
  · obtain ⟨h1, h8⟩ := not_sizeGuarded_iff.1 hguard
    obtain ⟨hbuf, hflag⟩ := transform_alike (alikeBelow_reads (2 ^ p₁.m.toNat)) s₁.rom rfl hbytes s₁.im s₂.im
    have hexec₂ := exec_fft_of_not_guarded hp₂ (hm ▸ h1) (hm ▸ h8)
    rw [← hm, State.transformed, ← hrom] at hexec₂
    refine ⟨_, _, exec_fft_of_not_guarded hp₁ h1 h8, hexec₂, hbuf, fun hovf => ?_⟩
    rw [State.transformed, (completes_complete s₁ _).ovfFlag, (completes_complete s₂ _).ovfFlag, hovf, hflag]

end Sys2Proof.Machine
end

section
/-! PROOFS of 10_state.md R32: the host's move, a reset and a completion do not read the IM that the last command left,
so no step does. -/

namespace Sys2Proof.Machine

section SetIm

variable (s : State) (im : Memory)

/-! ### The host's move and IM -/

theorem memWrite_setIm (a : HostAddr) (v : Byte) : memWrite a v (s.setIm im) = (memWrite a v s).setIm im := by
  have hbusy : (s.setIm im).busy = s.busy := rfl
  unfold memWrite
  rw [hbusy]
  cases placeOf a with
  | buf i => cases s.busy <;> rfl
  | cmd =>
    cases s.busy
    · simp only [Bool.false_eq_true, if_false, decodeCommand]
      cases decodeByte v <;> rfl
    · rfl
  | len => cases s.busy <;> rfl
  | status => rfl
  | op k => cases s.busy <;> rfl
  | res k => rfl
  | reserved => rfl

theorem memRead_setIm (a : HostAddr) :
    memRead a (s.setIm im) = ((memRead a s).1, (memRead a s).2.setIm im) := by
  have hbusy : (s.setIm im).busy = s.busy := rfl
  unfold memRead
  rw [hbusy]
  cases placeOf a with
  | buf i => cases s.busy <;> rfl
  | cmd => rfl
  | len => rfl
  | status => rfl
  | op k => rfl
  | res k => rfl
  | reserved => rfl

theorem transact_setIm (t : Transaction) : transact t (s.setIm im) = (transact t s).setIm im := by
  obtain ⟨_ | _, a, v⟩ := t
  · simp only [transact, memRead_setIm, Bool.false_eq_true, if_false]
    rfl
  · simp only [transact, memWrite_setIm, if_true]

theorem hostMove_setIm : hostMove (s.setIm im) = (hostMove s).setIm im := by
  unfold hostMove
  rw [State.setIm_host]
  cases s.host.program[s.host.line]? with
  | none => rfl
  | some line =>
    cases line with
    | bus t => simp only [transact_setIm]; rfl
    | readBranch a mask offset => simp only [transact_setIm, memRead_setIm]; rfl

/-! ### Completion and IM -/

/-- Another IM gives the same outputs but for IM: FFT clears what it reads, and no other command reads any. -/
theorem outputs_other_im (i : Instr) (p : Pending) (rom : SineRom) (buf im₁ im₂ : Memory) (res : Results) :
    ∃ im', outputs i p rom buf im₂ res = { outputs i p rom buf im₁ res with im := im' } := by
  cases i with
  | fft =>
    by_cases h : sizeGuarded p.exponent = true
    · exact ⟨im₂, by simp only [outputs, if_pos h]⟩
    · obtain ⟨hbuf, hovf⟩ := transform_alike (alikeBelow_eq _) rom (M := p.exponent) rfl (Eq.refl buf) im₁ im₂
      exact ⟨(transform rom p.exponent buf im₂).im, by simp only [outputs, if_neg h, hbuf, hovf]⟩
  | bitrev => by_cases h : sizeGuarded p.exponent = true <;> exact ⟨im₂, by simp [outputs, h]⟩
  | mul => exact ⟨im₂, rfl⟩
  | romrd => exact ⟨im₂, rfl⟩
  | twid => exact ⟨im₂, rfl⟩
  | bfly => exact ⟨im₂, rfl⟩

theorem completed_setIm (p : Pending) (ts : List Turn) :
    ∃ im', (s.setIm im).completed p ts = (s.completed p ts).setIm im' := by
  obtain ⟨im', h⟩ := outputs_other_im p.op p s.rom s.buf s.im im s.res
  refine ⟨im', ?_⟩
  simp only [State.completed, State.setIm_rom, State.setIm_buf, State.setIm_im, State.setIm_res, h]
  rfl

/-! ### A step and IM -/

theorem engineTurn_setIm {t : State} (h : engineTurn s = .next t) :
    ∃ im', engineTurn (s.setIm im) = .next (t.setIm im') := by
  have hbusy : (s.setIm im).busy = s.busy := rfl
  unfold engineTurn
  rw [hbusy, State.setIm_pending]
  rcases engineTurn_cases h with ⟨hb, rfl⟩ | ⟨p, hb, hp, hx⟩
  · exact ⟨im, by simp [hb]⟩
  · obtain rfl := Host.Outcome.next.inj (hx.symm.trans (exec_of_pending hp s.turns))
    obtain ⟨im', him'⟩ := completed_setIm s im p s.turns
    refine ⟨im', ?_⟩
    simp only [hb, hp, if_true, ← him']
    exact exec_of_pending (s := s.setIm im) hp s.turns

theorem step_setIm {t : State} (h : step s = .next t) : ∃ im', step (s.setIm im) = .next (t.setIm im') := by
  have hbusy : (s.setIm im).busy = s.busy := rfl
  unfold step at h ⊢
  rw [hbusy, State.setIm_turns]
  split at h
  · next ts hts =>
    obtain rfl := Host.Outcome.next.inj h
    exact ⟨im, congrArg _ (hostMove_setIm (s.setTurns ts) im)⟩
  · next ts hts => exact engineTurn_setIm (s.setTurns ts) im h
  · next ts hts =>
    obtain rfl := Host.Outcome.next.inj h
    exact ⟨[], rfl⟩
  · next hts =>
    split at h
    · next hb =>
      simp only [hb, if_true]
      exact engineTurn_setIm s im h
    · next hb =>
      obtain rfl := Host.Outcome.next.inj h
      simp only [if_neg hb]
      exact ⟨im, congrArg _ (hostMove_setIm s im)⟩

end SetIm

/-- Settles O48: the second state is the first with another IM, so its step is the first's with some IM, which no
observation reads. -/
theorem imIsNeverObserved : Obligations.ImIsNeverObserved := by
  unfold Obligations.ImIsNeverObserved
  intro s₁ s₂ t₁ h hstep
  have hs₂ : s₂ = s₁.setIm s₂.im := (congrArg (State.setIm · s₂.im) h).symm
  obtain ⟨im', hstep'⟩ := step_setIm s₁ s₂.im hstep
  exact ⟨t₁.setIm im', hs₂ ▸ hstep', rfl, rfl⟩

end Sys2Proof.Machine
end

section
/-! PROOFS of 30_encoding.md and 00_scope.md: commands and their bytes (R80, R83, R84, R87), transactions and their
words (R91), wrapped values (R13). -/

namespace Sys2Proof

/-! ### Commands -/

/-- Settles O1: each written-out byte by the decoder. -/
theorem writtenOutWordsDecode : Obligations.WrittenOutWordsDecode :=
  ⟨rfl, rfl, rfl, rfl, rfl, rfl, rfl, rfl, rfl⟩

theorem decodeByte_encodeByte (i : Instr) : decodeByte (encodeByte i) = .ok i := by cases i <;> rfl

/-- A row of the opcode map is found by its own OP alone. -/
theorem opField_of_opOf {op : BitVec 4} {i : Instr} (h : opOf op = some i) : opField i = op := by
  apply BitVec.eq_of_toNat_eq
  unfold opOf at h
  split at h
  case h_7 => cases h
  all_goals
    next hop =>
      obtain rfl := Option.some.inj h
      rw [hop]
      rfl

theorem encodeByte_of_decodeByte {v : Byte} {i : Instr} (h : decodeByte v = .ok i) : encodeByte i = v := by
  obtain ⟨hlt, hop⟩ := decodeByte_eq_ok_iff.1 h
  apply BitVec.eq_of_toNat_eq
  rw [encodeByte, opField_of_opOf hop, BitVec.toNat_append, BitVec.toNat_ofNat, cmdOp_toNat, Nat.mod_eq_of_lt hlt]
  simp

/-- Settles O2: the byte of each command decodes to it, and the opcode map has no second OP for a command. -/
theorem commandEncodingRoundTrip : Obligations.CommandEncodingRoundTrip := by
  refine ⟨fun i rest => ?roundTrip, fun i => ?tableWord, fun v i => encodeByte_of_decodeByte,
    fun v => exists_decodeByte_eq_ok_iff⟩
  case roundTrip => simp [encode, decode, decodeByte_encodeByte]
  case tableWord => cases i <;> rfl

/-! ### Transactions (30_encoding.md R91) -/

theorem encodeTransaction_toNat (t : Transaction) : (encodeTransaction t).toNat =
    (if t.write then 1 else 0) * 2 ^ 18 + t.addr.toNat * 2 ^ 8 + t.data.toNat := by
  have ha := t.addr.isLt
  have hd := t.data.isLt
  rw [encodeTransaction, BitVec.toNat_append, BitVec.toNat_append, ← Nat.shiftLeft_add_eq_or_of_lt ha,
    ← Nat.shiftLeft_add_eq_or_of_lt hd, Nat.shiftLeft_eq, Nat.shiftLeft_eq]
  cases t.write <;> simp
  omega

/-- The three fields of a word. -/
def transactionOf (w : BitVec 19) : Transaction := ⟨w.getLsbD 18, w.extractLsb' 8 10, w.extractLsb' 0 8⟩

theorem decodeTransaction_eq (w : BitVec 19) : decodeTransaction w =
    if (transactionOf w).wellFormed then .ok (transactionOf w) else .error .readData := rfl

theorem transactionOf_encodeTransaction (t : Transaction) : transactionOf (encodeTransaction t) = t := by
  have hw := encodeTransaction_toNat t
  obtain ⟨wr, a, d⟩ := t
  have ha := a.isLt
  have hd := d.isLt
  simp only at hw
  rw [transactionOf, Transaction.mk.injEq]
  refine ⟨?_, BitVec.eq_of_toNat_eq ?_, BitVec.eq_of_toNat_eq ?_⟩
  · rw [BitVec.getLsbD, hw, Nat.testBit_eq_decide_div_mod_eq]
    cases wr <;> simp <;> omega
  · rw [BitVec.extractLsb'_toNat, hw, Nat.shiftRight_eq_div_pow]
    cases wr <;> simp <;> omega
  · rw [BitVec.extractLsb'_toNat, hw, Nat.shiftRight_eq_div_pow]
    cases wr <;> simp <;> omega

theorem encodeTransaction_transactionOf (w : BitVec 19) : encodeTransaction (transactionOf w) = w := by
  have hw := w.isLt
  have hbit : (if w.getLsbD 18 then 1 else 0) = w.toNat / 2 ^ 18 % 2 := by
    rw [← Nat.toNat_testBit, BitVec.getLsbD]
    cases w.toNat.testBit 18 <;> rfl
  apply BitVec.eq_of_toNat_eq
  rw [encodeTransaction_toNat, transactionOf, hbit, BitVec.extractLsb'_toNat, BitVec.extractLsb'_toNat,
    Nat.shiftRight_eq_div_pow, Nat.shiftRight_eq_div_pow]
  omega

/-- Settles O3: a word is its three fields, and the decoder gives them back where they are well formed. -/
theorem transactionWordRoundTrip : Obligations.TransactionWordRoundTrip := by
  refine ⟨fun t ht => ?decoded, fun w t hw => ?encoded, encodeTransaction_toNat, rfl, rfl⟩
  case decoded => rw [decodeTransaction_eq, transactionOf_encodeTransaction, if_pos ht]
  case encoded =>
    rw [decodeTransaction_eq] at hw
    split at hw
    · next hwf =>
      obtain rfl := Except.ok.inj hw
      exact ⟨hwf, encodeTransaction_transactionOf w⟩
    · cases hw

end Sys2Proof

namespace Sys2Proof.Machine

/-! ### Wrapped values (00_scope.md R13) -/

theorem dvd_wrap8_sub (x : Int) : (256 : Int) ∣ wrap8 x - x := by
  unfold wrap8
  omega

/-- Settles O35: the clauses are the laws of wrap8 and of the stored byte. -/
theorem wrapAndStoreByte : Obligations.WrapAndStoreByte := fun x =>
  ⟨(wrap8_range x).1, (wrap8_range x).2, dvd_wrap8_sub x, storedByte_eq_ofInt x, int8_storedByte x,
    fun hlow hhigh => wrap8_of_mem ⟨hlow, hhigh⟩⟩

end Sys2Proof.Machine
end

section
/-! PROOFS of 20_memory.md, 10_state.md and 60_exceptions.md: the writes of the host port (R53, R26), that none disturbs
a command in flight (R57, R64), one condition at a time (R206), POLL (R92) and the reads at reset (R36). -/

namespace Sys2Proof.Machine

section HostPort

variable {s : State} {v : Byte}

/-! ### The write of the registers that share a class, by number -/

theorem placeOf_opAddr {k : Nat} (h : k ≤ 4) : placeOf (opAddr k) = .op k := by
  refine placeOf_op_iff.2 ⟨?_, h⟩
  rw [opAddr, BitVec.toNat_ofNat]
  omega

theorem memWrite_opAddr_idle (hb : s.busy = false) {k : Nat} (h : k ≤ 4) :
    memWrite (opAddr k) v s = s.setOps (s.ops.put v k) :=
  memWrite_op_idle (placeOf_opAddr h) hb

/-- RES and the reserved addresses take no write. -/
theorem memWrite_readOnly {a : HostAddr} (h : (0x100 ≤ a.toNat ∧ a.toNat ≤ 0x1FF) ∨ a.toNat = 0x203 ∨
    (0x209 ≤ a.toNat ∧ a.toNat ≤ 0x3FF)) : memWrite a v s = s := by
  by_cases hres : 0x20C ≤ a.toNat ∧ a.toNat ≤ 0x20F
  · exact memWrite_res (k := a.toNat - 0x20C) (placeOf_res_iff.2 (by omega))
  · exact memWrite_reserved (placeOf_reserved_iff.2 (by omega))

theorem lenAfterWrite_toNat (v : Byte) : (lenAfterWrite v).toNat = v.toNat % 16 := by
  rw [lenAfterWrite, BitVec.toNat_append, BitVec.extractLsb'_toNat]
  simp

end HostPort

/-- Settles O5: one write lemma per class of the address map, and the refusal while busy. -/
theorem busWriteHasTheMappedEffect : Obligations.BusWriteHasTheMappedEffect := by
  unfold Obligations.BusWriteHasTheMappedEffect
  intro s v
  refine ⟨fun i hi hb => ?buf, fun hb a ha => ?busy, fun hb => ?registers, fun a => memWrite_readOnly⟩
  case buf =>
    rw [memWrite_buf_idle (placeOf_bufAddr hi) hb]
    refine ⟨fun a => ?_, rfl⟩
    simp only [State.bufByte, State.setBuf_buf, bufRead_write, eq_comm]
  case busy =>
    have hrefused : Refusable ⟨true, a, v⟩ := by
      simp only [Refusable, true_and]
      omega
    rw [memWrite_of_refused hb hrefused, raise_accErr_eq]
  case registers =>
    have hop {k : Nat} (h : k ≤ 4) := memWrite_opAddr_idle (v := v) hb h
    rw [memWrite_len_idle (placeOf_len_iff.2 rfl) hb]
    exact ⟨lenAfterWrite_toNat v, rfl, hop (k := 0) (by decide), hop (k := 1) (by decide), hop (k := 2) (by decide),
      hop (k := 3) (by decide), hop (k := 4) (by decide)⟩

/-- Settles O7: what the STATUS write makes of each flag and of the reserved bits. -/
theorem statusWriteClearsTheOnes : Obligations.StatusWriteClearsTheOnes := by
  unfold Obligations.StatusWriteClearsTheOnes
  intro s v
  rw [memWrite_status (placeOf_status_iff.2 rfl)]
  refine ⟨fun f hf => ?_, ?_, statusTop_statusAfterWrite v s.status, rfl⟩
  · simp [State.has, hasFlag_statusAfterWrite, hf]
  · simp [State.busy, State.has, hasFlag_statusAfterWrite]

/-- Settles O9: while busy the move is a change of STATUS that keeps BUSY, and of the host. -/
theorem hostCannotDisturbACommand : Obligations.HostCannotDisturbACommand := by
  unfold Obligations.HostCannotDisturbACommand
  intro s hb
  obtain ⟨st, g, hmove, hbusy⟩ := hostMove_of_busy hb
  rw [hmove]
  exact ⟨rfl, hbusy⟩

/-! ### One condition at a time (60_exceptions.md R206) -/

/-- A transaction newly raises ACC_ERR where it is refused, and CMD_ERR where it is not. -/
theorem transact_raises_error {s : State} {t : Transaction} {f : Flag} (hf : f.isError = true)
    (hclear : s.has f = false) (hset : (transact t s).has f = true) :
    ((s.busy = true ∧ Refusable t) ∧ f = .accErr) ∨ (¬ (s.busy = true ∧ Refusable t) ∧ f = .cmdErr) := by
  by_cases h : s.busy = true ∧ Refusable t
  · refine .inl ⟨h, ?_⟩
    have hst : (transact t s).status = setFlag .accErr s.status := by
      rw [transact_of_refused h.1 h.2]
      split <;> simp
    simp only [State.has, hst] at hclear hset
    simpa [hclear] using hset
  · refine .inr ⟨h, ?_⟩
    rcases transact_status_of_not_refused h with hst | ⟨-, -, hst⟩ | hst | hst
    all_goals simp only [State.has, hst] at hclear hset
    · simp [hclear] at hset
    · simp [hasFlag_statusAfterWrite, hclear] at hset
    · have hbusy : f ≠ .busy := by rintro rfl; cases hf
      simp [hclear, hbusy] at hset
    · simpa [hclear] using hset

/-- Settles O10: a transaction's one flag depends on whether it is refused, and no command puts out both conditions. -/
theorem atMostOneConditionPerStep : Obligations.AtMostOneConditionPerStep := by
  unfold Obligations.AtMostOneConditionPerStep
  refine ⟨fun s t f g hf hg hf₀ hf₁ hg₀ hg₁ => ?transaction, fun s t i hexec => ?completion⟩
  case transaction =>
    rcases transact_raises_error hf hf₀ hf₁ with ⟨h, rfl⟩ | ⟨h, rfl⟩ <;>
      rcases transact_raises_error hg hg₀ hg₁ with ⟨h', rfl⟩ | ⟨h', rfl⟩
    · rfl
    · exact absurd h h'
    · exact absurd h' h
    · rfl
  case completion =>
    rintro ⟨hsize₀, hsize₁, hovf₀, hovf₁⟩
    obtain rfl := eq_complete_of_exec hexec
    have hc := completes_complete s (s.outputsOf i)
    rw [hc.sizeErr, hsize₀, Bool.false_or] at hsize₁
    rw [hc.ovfFlag, hovf₀, Bool.false_or] at hovf₁
    exact not_size_and_ovf_of_outputs ⟨hsize₁, hovf₁⟩

/-! ### POLL and the reads at reset -/

/-- POLL's mask picks BUSY out of STATUS. -/
theorem and_one_eq_zero_iff (st : Byte) : st &&& 0x01#8 = 0#8 ↔ hasFlag .busy st = false := by
  revert st
  decide

/-- Settles O11: the read of STATUS, and the branch on BUSY with offset 0. -/
theorem pollWaitsForIdle : Obligations.PollWaitsForIdle := by
  unfold Obligations.PollWaitsForIdle
  intro s hline
  have hread : memRead statusAddr s = (s.status, s) := memRead_status s (placeOf_status_iff.2 rfl)
  have hmove : hostMove s = (s.reply s.status).goto (if s.busy then s.host.line else s.host.line + 1) := by
    unfold hostMove
    simp only [hline, poll, transact, hread, and_one_eq_zero_iff, Bool.false_eq_true, if_false, Int.add_zero,
      Int.toNat_natCast]
    rw [show hasFlag .busy s.status = s.busy from rfl]
    cases s.busy <;> rfl
  rw [hmove]
  exact ⟨rfl, rfl, rfl, rfl⟩

/-- Settles O37: by the class of the address, BUF excepted, each register being 0 at reset. -/
theorem resetStateReadsZero : Obligations.ResetStateReadsZero := by
  refine ⟨fun a ha => ?reads, rfl, rfl, fun a => ⟨rfl, rfl⟩⟩
  case reads =>
    cases hp : placeOf a with
    | buf i =>
      have := placeOf_buf_iff.1 hp
      omega
    | cmd => exact memRead_cmd _ hp
    | len => exact memRead_len _ hp
    | status => exact memRead_status _ hp
    | op k =>
      have hzero : State.reset.ops.get k = 0#8 := by
        unfold Operands.get
        split <;> rfl
      rw [memRead_op _ hp, hzero]
    | res k =>
      have hzero : State.reset.res.get k = 0#8 := by
        unfold Results.get
        split <;> rfl
      rw [memRead_res _ hp, hzero]
    | reserved => exact memRead_reserved _ hp

end Sys2Proof.Machine
end

section
/-! PROOFS of 10_state.md and 70_reset_and_hazards.md: canonical stores (R30, R32) and the effect of a reset
(R230-R233). -/

namespace Sys2Proof.Machine

/-! ### Canonical stores (10_state.md R30, R32) -/

theorem Memory.lookup_eq_none {m : Memory} {a : Nat} (h : ∀ c ∈ m, a < c.1) : m.lookup a = none := by
  induction m with
  | nil => rfl
  | cons c m ih =>
    rw [List.forall_mem_cons] at h
    rw [Memory.lookup, if_neg (by omega), ih h.2]

/-- The least address of a store with strictly rising addresses is the head's, and the rest determines what is left. -/
theorem Memory.eq_of_lookup_eq {m₁ m₂ : Memory} (h₁ : m₁.Pairwise fun x y => x.1 < y.1)
    (h₂ : m₂.Pairwise fun x y => x.1 < y.1) (h : ∀ a, m₁.lookup a = m₂.lookup a) : m₁ = m₂ := by
  induction m₁ generalizing m₂ with
  | nil =>
    cases m₂ with
    | nil => rfl
    | cons c m₂ => simpa [Memory.lookup] using h c.1
  | cons c₁ m₁ ih =>
    obtain ⟨a₁, v₁⟩ := c₁
    cases m₂ with
    | nil => simpa [Memory.lookup] using h a₁
    | cons c₂ m₂ =>
      obtain ⟨a₂, v₂⟩ := c₂
      obtain ⟨hrise₁, htail₁⟩ := List.pairwise_cons.1 h₁
      obtain ⟨hrise₂, htail₂⟩ := List.pairwise_cons.1 h₂
      have hhead : a₁ = a₂ := by
        rcases Nat.lt_trichotomy a₁ a₂ with hlt | heq | hlt
        · have hnone : Memory.lookup ((a₂, v₂) :: m₂) a₁ = none :=
            Memory.lookup_eq_none (List.forall_mem_cons.2 ⟨hlt, fun c hc => hlt.trans (hrise₂ c hc)⟩)
          simpa [Memory.lookup] using (h a₁).trans hnone
        · exact heq
        · have hnone : Memory.lookup ((a₁, v₁) :: m₁) a₂ = none :=
            Memory.lookup_eq_none (List.forall_mem_cons.2 ⟨hlt, fun c hc => hlt.trans (hrise₁ c hc)⟩)
          simpa [Memory.lookup] using (h a₂).symm.trans hnone
      subst hhead
      have hvalue : v₁ = v₂ := by simpa [Memory.lookup] using h a₁
      have htail : ∀ a, Memory.lookup m₁ a = Memory.lookup m₂ a := by
        intro a
        by_cases ha : a₁ = a
        · subst ha
          rw [Memory.lookup_eq_none hrise₁, Memory.lookup_eq_none hrise₂]
        · simpa [Memory.lookup, ha] using h a
      rw [hvalue, ih htail₁ htail₂ htail]

/-- Settles O36: strictly rising addresses leave one list for each set of values. -/
theorem canonicalMemoriesAreEqualData : Obligations.CanonicalMemoriesAreEqualData :=
  fun _ _ ⟨hrise₁, _⟩ ⟨hrise₂, _⟩ h => Memory.eq_of_lookup_eq hrise₁ hrise₂ h

/-! ### Reset (70_reset_and_hazards.md R230-R233) -/

/-- Settles O38: the registers as written, and BUF by the number of bytes that the abandoned command leaves. -/
theorem resetEventEffect : Obligations.ResetEventEffect := by
  unfold Obligations.ResetEventEffect
  rintro s _ rfl
  refine ⟨⟨rfl, rfl, rfl, rfl, rfl, rfl, rfl, rfl, fun _ => rfl⟩, fun p hp hop h1 h8 => ?abandons, fun hkept => ?keeps,
    fun _ => rfl⟩
  case abandons =>
    have hextent : lostExtent s.pending = 2 ^ p.m.toNat := by rw [hp, lostExtent_of_abandoned hop h1 h8]
    simp only [State.bufByte, resetEngine_buf, resetEngine_draws, hextent]
    exact ⟨fun a ha => bufRead_loseBytes_of_ge _ _ ha, fun i hi => bufRead_loseBytes_of_lt _ _ hi, trivial⟩
  case keeps =>
    have hextent : lostExtent s.pending = 0 := by
      cases hp : s.pending with
      | none => rfl
      | some p => exact lostExtent_of_not_abandoned (hkept p hp)
    rw [resetEngine_buf, resetEngine_draws, hextent]
    exact ⟨rfl, rfl⟩

end Sys2Proof.Machine
end

section
/-! PROOFS of 10_state.md R33 and 70_reset_and_hazards.md: the latch is all a completion works on, who moves in a step
(R245), and the end of a run (R248). -/

namespace Sys2Proof.Machine

/-! ### The latch (10_state.md R33) -/

/-- A STATUS byte is its flags and its reserved bits. -/
theorem status_ext {st st' : Byte} (hflags : ∀ f, hasFlag f st = hasFlag f st') (htop : statusTop st = statusTop st') :
    st = st' := by
  have htop' (j : Nat) (hj : j < 2) : st.getLsbD (6 + j) = st'.getLsbD (6 + j) := by
    simpa [statusTop, hj] using congrArg (BitVec.getLsbD · j) htop
  apply BitVec.eq_of_getLsbD_eq
  intro i hi
  match i, hi with
  | 0, _ => exact hflags .busy
  | 1, _ => exact hflags .done
  | 2, _ => exact hflags .sizeErr
  | 3, _ => exact hflags .ovf
  | 4, _ => exact hflags .cmdErr
  | 5, _ => exact hflags .accErr
  | 6, _ => exact htop' 0 (by decide)
  | 7, _ => exact htop' 1 (by decide)

/-- Completions that raise the same, from states whose error flags agree at `f`, leave the same `f`. -/
theorem Completes.has_eq {s t s' t' : State} {size ovf : Bool} {f : Flag} (h : Completes s t size ovf)
    (h' : Completes s' t' size ovf) (hf : f.isError = true → s.has f = s'.has f) : t.has f = t'.has f := by
  cases f with
  | busy => rw [h.busy, h'.busy]
  | done => rw [h.done, h'.done]
  | sizeErr => rw [h.sizeErr, h'.sizeErr, hf rfl]
  | ovf => rw [h.ovfFlag, h'.ovfFlag, hf rfl]
  | cmdErr => rw [h.cmdErr, h'.cmdErr, hf rfl]
  | accErr => rw [h.accErr, h'.accErr, hf rfl]

/-- Acceptance keeps the error flags (30_encoding.md R82). -/
theorem accept_has_error {f : Flag} (hf : f.isError = true) (i : Instr) (s : State) :
    (accept i s).has f = s.has f := by
  have hbusy : f ≠ .busy := by rintro rfl; cases hf
  have hdone : f ≠ .done := by rintro rfl; cases hf
  simp [State.has, hbusy, hdone]

/-- Acceptance leaves no trace in STATUS once the command completes: it sets BUSY and clears DONE, and completion does
the opposite. -/
theorem complete_accept (i : Instr) (s : State) (o : Outputs) : (accept i s).complete o = s.complete o := by
  have ha := completes_complete (accept i s) o
  have hs := completes_complete s o
  have hstatus : ((accept i s).complete o).status = (s.complete o).status :=
    status_ext (fun f => ha.has_eq hs fun hf => accept_has_error hf i s)
      (ha.reserved.trans ((statusTop_statusAfterAccept s.status).trans hs.reserved.symm))
  calc (accept i s).complete o
    _ = (s.complete o).setStatus ((accept i s).complete o).status := rfl
    _ = (s.complete o).setStatus (s.complete o).status := by rw [hstatus]

/-- Settles O14: with PENDING empty the meaning works on what acceptance latches, and completion wipes out what
acceptance did to STATUS. -/
theorem idleExecIsAcceptThenComplete : Obligations.IdleExecIsAcceptThenComplete := by
  unfold Obligations.IdleExecIsAcceptThenComplete
  intro s i hp
  have houtputs : (accept i s).outputsOf i = s.outputsOf i := by
    simp [State.outputsOf, State.command, hp]
  rw [exec_eq_complete, exec_eq_complete, houtputs, complete_accept]

theorem exec_of_holds {s : State} {i : Instr} {p : Pending} (h : s.Holds i p) :
    exec i s = .next (s.completed p s.turns) := by
  obtain ⟨-, hp, rfl⟩ := h
  exact exec_of_pending hp s.turns

/-- Settles O15: the completion is of outputs that are the latch's own. -/
theorem completionIgnoresLiveRegisters : Obligations.CompletionIgnoresLiveRegisters := by
  unfold Obligations.CompletionIgnoresLiveRegisters
  intro s i p o l h
  have h' : ((s.setOps o).setLen l).Holds i p := h
  exact ⟨_, exec_of_holds h, exec_of_holds h'⟩

/-! ### Who moves (70_reset_and_hazards.md R245) -/

theorem engineTurn_of_busy {s : State} {p : Pending} (hb : s.busy = true) (hp : s.pending = some p) :
    engineTurn s = exec p.op s := by
  simp only [engineTurn, hb, hp, if_true]

theorem engineTurn_completes {s : State} {p : Pending} (hb : s.busy = true) (hp : s.pending = some p)
    (ts : List Turn) : engineTurn (s.setTurns ts) = .next (s.completed p ts) :=
  (engineTurn_of_busy (s := s.setTurns ts) hb hp).trans (exec_of_pending hp ts)

theorem engineTurn_of_idle {s : State} (hb : s.busy = false) : engineTurn s = .next s := by
  simp only [engineTurn, hb, Bool.false_eq_true, if_false]

section Turns

variable (s : State) (ts : List Turn)

theorem step_host : step (s.setTurns (.host :: ts)) = .next (hostMove (s.setTurns ts)) := rfl

theorem step_engine : step (s.setTurns (.engine :: ts)) = engineTurn (s.setTurns ts) := rfl

theorem step_reset : step (s.setTurns (.reset :: ts)) = .next (resetEngine (s.setTurns ts)) := rfl

variable {s}

theorem step_no_turn_busy (hb : s.busy = true) : step (s.setTurns []) = engineTurn (s.setTurns []) :=
  if_pos hb

theorem step_no_turn_idle (hb : s.busy = false) : step (s.setTurns []) = .next (hostMove (s.setTurns [])) :=
  if_neg (ne_true_of_eq_false hb)

end Turns

/-- Settles O12: by the first turn and BUSY. -/
theorem stepRunsThePendingCommand : Obligations.StepRunsThePendingCommand := by
  unfold Obligations.StepRunsThePendingCommand
  intro s ts
  refine ⟨fun p hb hp => ⟨?_, ?_⟩, fun hb => ⟨?_, step_no_turn_idle hb⟩, step_host s ts, step_reset s ts⟩
  · exact (step_engine s ts).trans (engineTurn_of_busy (s := s.setTurns ts) hb hp)
  · exact (step_no_turn_busy hb).trans (engineTurn_of_busy (s := s.setTurns []) hb hp)
  · exact (step_engine s ts).trans (engineTurn_of_idle (s := s.setTurns ts) hb)

/-- Settles O13: the word's command is accepted, and the turn laid down is the engine's. -/
theorem fetchedWordRunsNext : Obligations.FetchedWordRunsNext := by
  unfold Obligations.FetchedWordRunsNext
  intro s nbits w i hw
  have hfetch : s.withFetchWord nbits w = (accept i s).setTurns (.engine :: s.turns) := by
    simp only [State.withFetchWord, hw]
  rw [hfetch, step_engine]
  exact engineTurn_of_busy (s := accept i s) (accept_busy s i) rfl

theorem hostMove_past_end {s : State} (h : s.host.program.length ≤ s.host.line) : hostMove s = s := by
  simp only [hostMove, List.getElem?_eq_none h]

/-- Settles O50: with the engine idle and no turn the host moves, and past its last line it does nothing. -/
theorem endedRunStaysEnded : Obligations.EndedRunStaysEnded := by
  unfold Obligations.EndedRunStaysEnded
  rintro s ⟨hend, hb⟩ hts
  have hs : s.setTurns [] = s := hts ▸ s.setTurns_turns_self
  rw [← hs, step_no_turn_idle hb, hs, hostMove_past_end hend]

end Sys2Proof.Machine
end

section
/-! PROOFS of 10_state.md: the step's movers that may change the ROM (R31), RES (R28), BUF (R30) and BUSY (R25). -/

namespace Sys2Proof.Machine

/-! ### What each step may change -/

/-- Settles O47: no mover writes the ROM. -/
theorem romIsNeverWritten : Obligations.RomIsNeverWritten := by
  unfold Obligations.RomIsNeverWritten
  intro s t hstep
  obtain ⟨ts, ⟨-, rfl⟩ | rfl | ⟨-, rfl⟩ | ⟨p, -, -, -, rfl⟩⟩ := step_cases_by_turn hstep
  · rfl
  · rw [hostMove_rom, State.setTurns_rom]
  · rfl
  · rfl

/-- Settles O46: of the movers only a reset and a completion set RES, and FFT's and BITREV's does not. -/
theorem resultsChangeOnlyAtCompletion : Obligations.ResultsChangeOnlyAtCompletion := by
  unfold Obligations.ResultsChangeOnlyAtCompletion
  intro s t hstep hres
  obtain ⟨ts, ⟨hreset, -⟩ | rfl | ⟨-, rfl⟩ | ⟨p, hb, hp, -, rfl⟩⟩ := step_cases_by_turn hstep
  · exact .inl hreset
  · rw [hostMove_res, State.setTurns_res] at hres
    exact absurd rfl hres
  · exact absurd rfl hres
  · refine .inr ⟨hb, p, hp, ?_, rfl⟩
    cases hop : p.op with
    | fft => exact absurd (outputs_res_of_fft_or_bitrev (.inl hop)) hres
    | bitrev => exact absurd (outputs_res_of_fft_or_bitrev (.inr hop)) hres
    | mul => exact .inl rfl
    | romrd => exact .inr (.inl rfl)
    | twid => exact .inr (.inr (.inl rfl))
    | bfly => exact .inr (.inr (.inr rfl))

/-- A completion changes a BUF byte below 2^M by FFT or BITREV with M in 1..8 alone. -/
theorem outputs_changes_buf {i : Instr} {p : Pending} {rom : SineRom} {buf im : Memory} {res : Results} {a : Nat}
    (h : bufRead (outputs i p rom buf im res).buf a ≠ bufRead buf a) :
    (i = .fft ∨ i = .bitrev) ∧ 1 ≤ p.m.toNat ∧ p.m.toNat ≤ 8 ∧ a < 2 ^ p.m.toNat := by
  have hrange (hguard : ¬ sizeGuarded p.exponent = true) : 1 ≤ p.m.toNat ∧ p.m.toNat ≤ 8 :=
    not_sizeGuarded_iff.1 hguard
  cases i with
  | fft =>
    by_cases hguard : sizeGuarded p.exponent = true
    · simp [outputs, hguard] at h
    · simp only [outputs, if_neg hguard] at h
      exact ⟨.inl rfl, (hrange hguard).1, (hrange hguard).2,
        Nat.lt_of_not_le fun ha => h (transform_keeps rom buf im ha).1⟩
  | bitrev =>
    by_cases hguard : sizeGuarded p.exponent = true
    · simp [outputs, hguard] at h
    · simp only [outputs, if_neg hguard] at h
      exact ⟨.inr rfl, (hrange hguard).1, (hrange hguard).2,
        Nat.lt_of_not_le fun ha => h (bufRead_bitRev_of_ge ha buf)⟩
  | mul => exact absurd rfl h
  | romrd => exact absurd rfl h
  | twid => exact absurd rfl h
  | bfly => exact absurd rfl h

/-- The host changes a BUF byte by an idle write of its line alone. -/
theorem hostMove_changes_buf {s : State} {a : Nat} (h : (hostMove s).bufByte a ≠ s.bufByte a) :
    s.busy = false ∧ a < 256 ∧ s.HostWrites (bufAddr a) ((hostMove s).bufByte a) := by
  obtain ⟨g, e | ⟨-, e⟩ | ⟨addr, v, hline, e⟩⟩ := hostMove_by_line s
  · exact absurd (by rw [e]; rfl) h
  · exact absurd (by rw [e]; rfl) h
  · have hbyte : (hostMove s).bufByte a = (memWrite addr v s).bufByte a := by rw [e]; rfl
    rw [hbyte] at h ⊢
    obtain ⟨hb, hplace, hv⟩ := memWrite_changes_buf h
    have ha := placeOf_buf_lt hplace
    obtain rfl : addr = bufAddr a :=
      BitVec.eq_of_toNat_eq ((placeOf_buf_iff.1 hplace).1.trans (bufAddr_toNat ha).symm)
    exact ⟨hb, ha, hv.symm ▸ hline⟩

/-- Settles O45: by who moves, and which bytes a reset loses, the host writes and a completion stores. -/
theorem bufferChangesOnlyByItsWriters : Obligations.BufferChangesOnlyByItsWriters := by
  unfold Obligations.BufferChangesOnlyByItsWriters
  intro s t a hstep hbyte
  obtain ⟨ts, ⟨hreset, rfl⟩ | rfl | ⟨-, rfl⟩ | ⟨p, hb, hp, -, rfl⟩⟩ := step_cases_by_turn hstep
  · have hlost : a < lostExtent s.pending :=
      Nat.lt_of_not_le fun ha => hbyte (bufRead_loseBytes_of_ge s.buf s.draws ha)
    obtain ⟨p, hp, hop, h1, h8, ha⟩ := abandoned_of_lt_lostExtent hlost
    exact .inr ⟨p, hp, hop, h1, h8, ha, .inr hreset⟩
  · exact .inl (hostMove_changes_buf (s := s.setTurns ts) hbyte)
  · exact absurd rfl hbyte
  · obtain ⟨hop, h1, h8, ha⟩ := outputs_changes_buf hbyte
    exact .inr ⟨p, hp, hop, h1, h8, ha, .inl hb⟩

/-- The host sets BUSY by an accepted CMD write of its line alone. -/
theorem hostMove_accepts {s : State} (hb : s.busy = false) (h : (hostMove s).busy = true) :
    ∃ v i g, s.HostWrites cmdAddr v ∧ decodeByte v = .ok i ∧ hostMove s = (accept i s).setHost g := by
  obtain ⟨g, e | ⟨hbusy, -⟩ | ⟨a, v, hline, e⟩⟩ := hostMove_by_line s
  · rw [e] at h
    exact absurd (hb.symm.trans h) Bool.false_ne_true
  · exact absurd (hb.symm.trans hbusy) Bool.false_ne_true
  · rw [e] at h
    obtain ⟨rfl, i, hi, haccept⟩ := memWrite_accepts hb h
    exact ⟨v, i, g, hline, hi, haccept ▸ e⟩

/-- Settles O44: the host alone sets BUSY, and does not clear it. -/
theorem busyRisesAndFalls : Obligations.BusyRisesAndFalls := by
  unfold Obligations.BusyRisesAndFalls
  intro s t hstep
  obtain ⟨ts, ⟨hreset, rfl⟩ | rfl | ⟨hidle, rfl⟩ | ⟨p, hb, hp, hturn, rfl⟩⟩ := step_cases_by_turn hstep
  · refine ⟨fun _ hafter => ?_, fun _ _ => .inl hreset⟩
    rw [resetEngine_busy] at hafter
    cases hafter
  · refine ⟨fun hb hafter => ?rises, fun hb hafter => ?stays⟩
    case rises =>
      obtain ⟨v, i, g, hline, hi, hmove⟩ := hostMove_accepts (s := s.setTurns ts) hb hafter
      rw [hmove]
      exact ⟨v, i, hline, hi, rfl, by simp [State.has]⟩
    case stays =>
      obtain ⟨st, g, hmove, hbusy⟩ := hostMove_of_busy (s := s.setTurns ts) hb
      rw [hmove] at hafter
      exact absurd (hafter.symm.trans hbusy) Bool.false_ne_true
  · exact ⟨fun hb hafter => absurd (hb.symm.trans hafter) Bool.false_ne_true,
      fun hb _ => absurd (hidle.symm.trans hb) Bool.false_ne_true⟩
  · exact ⟨fun hidle _ => absurd (hidle.symm.trans hb) Bool.false_ne_true,
      fun _ _ => .inr ⟨completed_done _ _ _, rfl, p, hp, hturn⟩⟩

end Sys2Proof.Machine
end

section
/-! PROOFS of 70_reset_and_hazards.md: an accepted command completes (R247), and the two orders of a racing operand
write (R246). -/

namespace Sys2Proof.Machine

/-! ### An accepted command completes (70_reset_and_hazards.md R247) -/

/-- Within the turns laid down and one more step there is a first state with BUSY = 0, and DONE is 1 in it unless one of
the turns taken was a reset. -/
def State.ComesToRest (s : State) : Prop :=
  ∃ (k : Nat) (t : State), k ≤ s.turns.length + 1 ∧ Sys2Proof.core.run k s = .next t ∧ t.busy = false ∧
    (∀ j < k, ∃ u : State, Sys2Proof.core.run j s = .next u ∧ u.busy = true) ∧
    (t.has .done = true ∨ Turn.reset ∈ s.turns.take k)

section ComesToRest

variable {s t : State} (hb : s.busy = true) (hstep : step s = .next t)

include hb hstep

theorem comesToRest_of_last_step (ht : t.busy = false) (hend : t.has .done = true ∨ Turn.reset ∈ s.turns.take 1) :
    s.ComesToRest :=
  ⟨1, t, by omega, run_succ_of_next hstep 0, ht, fun j hj => ⟨s, by rw [Nat.lt_one_iff.1 hj, run_zero], hb⟩, hend⟩

theorem comesToRest_of_step {turn : Turn} (hturns : s.turns = turn :: t.turns) (h : t.ComesToRest) :
    s.ComesToRest := by
  obtain ⟨k, u, hk, hrun, hu, hbefore, hend⟩ := h
  refine ⟨k + 1, u, by simpa [hturns] using hk, (run_succ_of_next hstep k).trans hrun, hu, fun j hj => ?_,
    hend.imp_right fun hmem => by simp [hturns, hmem]⟩
  cases j with
  | zero => exact ⟨s, run_zero s, hb⟩
  | succ j =>
    obtain ⟨v, hv, hvbusy⟩ := hbefore j (by omega)
    exact ⟨v, (run_succ_of_next hstep j).trans hv, hvbusy⟩

end ComesToRest

/-- Settles O42: by induction on the turns laid down. A host turn leaves the command in flight; an engine turn, or none
being left, completes it; a reset is the one other end. -/
theorem acceptedCommandCompletes : Obligations.AcceptedCommandCompletes := by
  unfold Obligations.AcceptedCommandCompletes
  intro s p hb hp
  show s.ComesToRest
  obtain ⟨ts, hts⟩ : ∃ ts, s.turns = ts := ⟨_, rfl⟩
  induction ts generalizing s with
  | nil =>
    have hs : s = s.setTurns [] := hts ▸ s.setTurns_turns_self.symm
    have hstep : step s = .next (s.completed p []) := by
      rw [hs, step_no_turn_busy hb]
      exact engineTurn_completes hb hp []
    exact comesToRest_of_last_step hb hstep (completed_busy s p []) (.inl (completed_done s p []))
  | cons turn ts ih =>
    have hs : s = s.setTurns (turn :: ts) := hts ▸ s.setTurns_turns_self.symm
    cases turn with
    | host =>
      have hstep : step s = .next (hostMove (s.setTurns ts)) := hs ▸ step_host s ts
      have hturns : (hostMove (s.setTurns ts)).turns = ts := hostMove_turns _
      obtain ⟨st, g, hmove, hbusy⟩ := hostMove_of_busy (s := s.setTurns ts) hb
      have hrest : (hostMove (s.setTurns ts)).ComesToRest := ih _ (hmove ▸ hbusy) (hmove ▸ hp) hturns
      exact comesToRest_of_step hb hstep (hturns.symm ▸ hts) hrest
    | engine =>
      have hstep : step s = .next (s.completed p ts) := by
        rw [hs, step_engine]
        exact engineTurn_completes hb hp ts
      exact comesToRest_of_last_step hb hstep (completed_busy s p ts) (.inl (completed_done s p ts))
    | reset =>
      have hstep : step s = .next (resetEngine (s.setTurns ts)) := hs ▸ step_reset s ts
      exact comesToRest_of_last_step hb hstep (resetEngine_busy _) (.inr (by simp [hts]))

/-! ### A racing operand write (70_reset_and_hazards.md R246) -/

theorem hostMove_of_hostWrites {s : State} {a : HostAddr} {v : Byte} (h : s.HostWrites a v) :
    hostMove s = (memWrite a v s).goto (s.host.line + 1) := by
  unfold State.HostWrites at h
  simp only [hostMove, h]
  rfl

theorem run_two {s t u : State} (hst : step s = .next t) (htu : step t = .next u) :
    Sys2Proof.core.run 2 s = .next u := by
  rw [run_succ_of_next hst, run_succ_of_next htu, run_zero]

/-- The host has been refused at its line and goes on. -/
def State.afterRefusal (s : State) : State := (s.raise .accErr).goto (s.host.line + 1)

section Race

variable {s : State} {p : Pending} {k : Nat} {v : Byte} (hb : s.busy = true) (hp : s.pending = some p)
  (hk : k ≤ 4) (hline : s.HostWrites (opAddr k) v)

include hb hp hk hline

/-- Host then engine: the write is refused, and the command completes. -/
theorem run_host_engine : Sys2Proof.core.run 2 (s.setTurns [.host, .engine]) =
    .next (s.afterRefusal.completed p []) := by
  have hrefused : memWrite (opAddr k) v (s.setTurns [.engine]) = (s.setTurns [.engine]).raise .accErr :=
    memWrite_of_refused hb (refusable_write_iff.2 (.inr (.inr (.inr ⟨k, placeOf_opAddr hk⟩))))
  have hhost : hostMove (s.setTurns [.engine]) = s.afterRefusal.setTurns [.engine] := by
    rw [hostMove_of_hostWrites (s := s.setTurns [.engine]) hline, hrefused]
    rfl
  have hbusy : s.afterRefusal.busy = true := by
    simpa [State.afterRefusal, State.busy, State.has] using hb
  refine run_two ((step_host s [.engine]).trans (congrArg _ hhost)) ?_
  rw [step_engine]
  exact engineTurn_completes (s := s.afterRefusal) hbusy hp []

/-- Engine then host: the command completes, and the write lands. -/
theorem run_engine_host : Sys2Proof.core.run 2 (s.setTurns [.engine, .host]) =
    .next (((s.completed p []).setOps (s.ops.put v k)).goto (s.host.line + 1)) := by
  have hengine : step (s.setTurns [.engine, .host]) = .next ((s.completed p []).setTurns [.host]) :=
    engineTurn_completes hb hp [.host]
  have hhost : hostMove (s.completed p []) =
      ((s.completed p []).setOps (s.ops.put v k)).goto (s.host.line + 1) := by
    rw [hostMove_of_hostWrites (s := s.completed p []) hline,
      memWrite_opAddr_idle (completed_busy s p []) hk]
    rfl
  exact run_two hengine ((step_host (s.completed p []) []).trans (congrArg _ hhost))

end Race

/-- Settles O49: the write is refused before the completion and lands after it; the outputs are the latch's in both. -/
theorem racingOperandWrite : Obligations.RacingOperandWrite := by
  unfold Obligations.RacingOperandWrite
  intro s i p k v hholds hk hline
  obtain ⟨hb, hp, -⟩ := hholds
  have hc₁ := completes_complete (s.afterRefusal.setTurns []) (outputs p.op p s.rom s.buf s.im s.res)
  have hc₂ := completes_complete (s.setTurns []) (outputs p.op p s.rom s.buf s.im s.res)
  have hflag {f : Flag} (hf : f ≠ .accErr) : s.afterRefusal.has f = s.has f := by
    simp [State.afterRefusal, State.has, hf]
  have hrefused : s.afterRefusal.has .accErr = true := by simp [State.afterRefusal, State.has]
  refine ⟨_, _, run_host_engine hb hp (by omega) hline, run_engine_host hb hp (by omega) hline, rfl,
    hc₁.accErr.trans hrefused, rfl, hc₂.accErr, rfl, rfl, fun f hf => ?flags, hc₁.busy, hc₂.busy⟩
  case flags => exact (hc₁.has_eq hc₂ fun _ => hflag hf :)

end Sys2Proof.Machine
end
